-- ==== Sys2Proof/Word.lean ====
section
/-! DEFINITION. The machine's words: 8-bit bytes and 16-bit values (spec/00_scope.md R7, R10). -/

namespace Sys2Proof

/-- An 8-bit value: a general register or a memory cell (`REG_WIDTH`, `CELL_WIDTH`, R7). -/
abbrev Byte := BitVec 8

/-- A 16-bit value: a register pair, `sp`, `pc` or an address (`PAIR_WIDTH`, `ADDR_WIDTH`, R7).
Addition on it is the spec's `+_16`, modulo 65536 (R10). -/
abbrev Word := BitVec 16

end Sys2Proof
end

