-- ==== Sys2Proof/Syntax.lean ====
section
/-! DEFINITION. Register identities, instruction descriptors and the instructions of
spec/opcode_table.json (spec/10_state.md R28; spec/30_encoding.md R81, R84). -/

namespace Sys2Proof

/-- The addressable 8-bit registers (10_state.md R28). -/
inductive Reg8 where
  | A | B | C | D | E | H | L | F
  deriving DecidableEq, Repr

/-- The register pairs, the only bases of `MemoryIndirect` (10_state.md R22; 30_encoding.md R82). -/
inductive Pair where
  | BC | DE | HL
  deriving DecidableEq, Repr

/-- The identities of the 16-bit accessors (10_state.md R28, R30). -/
inductive Reg16 where
  | BC | DE | HL | SP | PC
  deriving DecidableEq, Repr

/-- A register identity as a caller presents it, before any check: the spec's thirteen names, or one
that is none of them (10_state.md R28; log 17). -/
inductive RegId where
  | A | B | C | D | E | H | L | F
  | BC | DE | HL | SP | PC
  /-- An identity outside both enumerations. -/
  | other (name : String)
  deriving DecidableEq, Repr

/-- The two transforms, their bit index bound and in range (30_encoding.md R81, R82 (1)). -/
inductive Transform where
  | resetBit (n : Fin 8)
  | setBit (n : Fin 8)
  deriving DecidableEq, Repr

/-- The two addressing modes (30_encoding.md R81). -/
inductive Mode where
  /-- The operand is an 8-bit register. -/
  | registerDirect (r : Reg8)
  /-- The operand is the memory cell at the address the pair holds. -/
  | memoryIndirect (p : Pair)
  deriving DecidableEq, Repr

/-- A constructed instruction descriptor `Instr(xf, mode)`, well-formed by its type
(30_encoding.md R81, R82). -/
structure Descriptor where
  xf : Transform
  mode : Mode
  deriving DecidableEq, Repr

/-- A transform as a caller asks for it: its bit index may be out of range. -/
inductive RawTransform where
  | resetBit (n : Nat)
  | setBit (n : Nat)
  deriving DecidableEq, Repr

/-- An addressing mode as a caller asks for it: its identity may be unknown. -/
inductive RawMode where
  | registerDirect (id : RegId)
  | memoryIndirect (id : RegId)
  deriving DecidableEq, Repr

/-- A descriptor that a caller asks to have constructed (60_exceptions.md R151, R152). -/
structure RawDescriptor where
  xf : RawTransform
  mode : RawMode
  deriving DecidableEq, Repr

/-- What `Decode` reports with the cause UnknownOpcode: the first byte when it is not the 0xCB
prefix, else both bytes (30_encoding.md R88; 60_exceptions.md R151). -/
inductive UnknownOpcode where
  | firstByte (b0 : Byte)
  | bytePair (b0 b1 : Byte)
  deriving DecidableEq, Repr

/-- The instructions of spec/opcode_table.json, one constructor a row. The argument is the bit index
`n`, the row's one field; that it is at most 7 is a check of WellFormed.lean (30_encoding.md R82). -/
inductive Instr where
  /-- RES n,B -/
  | resB (n : Nat)
  /-- RES n,C -/
  | resC (n : Nat)
  /-- RES n,D -/
  | resD (n : Nat)
  /-- RES n,E -/
  | resE (n : Nat)
  /-- RES n,H -/
  | resH (n : Nat)
  /-- RES n,L -/
  | resL (n : Nat)
  /-- RES n,(HL) -/
  | resHL (n : Nat)
  /-- RES n,A -/
  | resA (n : Nat)
  /-- SET n,B -/
  | setB (n : Nat)
  /-- SET n,C -/
  | setC (n : Nat)
  /-- SET n,D -/
  | setD (n : Nat)
  /-- SET n,E -/
  | setE (n : Nat)
  /-- SET n,H -/
  | setH (n : Nat)
  /-- SET n,L -/
  | setL (n : Nat)
  /-- SET n,(HL) -/
  | setHL (n : Nat)
  /-- SET n,A -/
  | setA (n : Nat)
  deriving DecidableEq, Repr

/-- The bit index of an instruction (30_encoding.md R86). -/
def Instr.bitIndex : Instr → Nat
  | .resB n | .resC n | .resD n | .resE n | .resH n | .resL n | .resHL n | .resA n
  | .setB n | .setC n | .setD n | .setE n | .setH n | .setL n | .setHL n | .setA n => n

/-- The descriptor of an instruction, as the "descriptor" key of its row in spec/opcode_table.json
gives it (30_encoding.md R96). -/
def Instr.descriptor : Instr → RawDescriptor
  | .resB n => ⟨.resetBit n, .registerDirect .B⟩
  | .resC n => ⟨.resetBit n, .registerDirect .C⟩
  | .resD n => ⟨.resetBit n, .registerDirect .D⟩
  | .resE n => ⟨.resetBit n, .registerDirect .E⟩
  | .resH n => ⟨.resetBit n, .registerDirect .H⟩
  | .resL n => ⟨.resetBit n, .registerDirect .L⟩
  | .resHL n => ⟨.resetBit n, .memoryIndirect .HL⟩
  | .resA n => ⟨.resetBit n, .registerDirect .A⟩
  | .setB n => ⟨.setBit n, .registerDirect .B⟩
  | .setC n => ⟨.setBit n, .registerDirect .C⟩
  | .setD n => ⟨.setBit n, .registerDirect .D⟩
  | .setE n => ⟨.setBit n, .registerDirect .E⟩
  | .setH n => ⟨.setBit n, .registerDirect .H⟩
  | .setL n => ⟨.setBit n, .registerDirect .L⟩
  | .setHL n => ⟨.setBit n, .memoryIndirect .HL⟩
  | .setA n => ⟨.setBit n, .registerDirect .A⟩

end Sys2Proof
end

