-- ==== Sys2Proof/WellFormed.lean ====
section
/-! DEFINITION. Well-formedness of descriptors and instructions, the three checks of
spec/30_encoding.md R82. A bad parameter is never clamped: it fails the check. -/

namespace Sys2Proof

/-- R82 (1): the bit index is in 0..7. -/
def RawTransform.wellFormed : RawTransform → Bool
  | .resetBit n | .setBit n => decide (n < 8)

/-- The identity is one of A, B, C, D, E, H, L, F (10_state.md R28). -/
def RegId.isReg8 : RegId → Bool
  | .A | .B | .C | .D | .E | .H | .L | .F => true
  | .BC | .DE | .HL | .SP | .PC | .other _ => false

/-- The identity is one of BC, DE, HL (10_state.md R22). -/
def RegId.isPair : RegId → Bool
  | .BC | .DE | .HL => true
  | .A | .B | .C | .D | .E | .H | .L | .F | .SP | .PC | .other _ => false

/-- R82 (2) and (3): a register-direct operand is a Reg8, a memory-indirect base one of the three
pairs; SP and PC are refused as a base. -/
def RawMode.wellFormed : RawMode → Bool
  | .registerDirect id => id.isReg8
  | .memoryIndirect id => id.isPair

/-- All checks of R82 hold. -/
def RawDescriptor.wellFormed (d : RawDescriptor) : Bool :=
  d.xf.wellFormed && d.mode.wellFormed

/-- An instruction is well-formed when its descriptor is. -/
def Instr.wellFormed (i : Instr) : Bool := i.descriptor.wellFormed

end Sys2Proof
end

