-- ==== Sys2Proof/Decode.lean ====
section
/-! DEFINITION. The binary level: `Decode` of spec/30_encoding.md R88, the encoder written from the
encoding tables of R83 to R87, and spec/opcode_table.json's rows (R96). Following the spec's own
mark, the whole binary level is its decision D4, D5 and no statement of the source (log 14). -/

namespace Sys2Proof

/-- The constant first byte of every instruction (R83). -/
def cbByte : Byte := 0xCB#8

/-- Field `tt`, bits 7:6 of the second byte (R83). -/
def fieldTt (b1 : Byte) : BitVec 2 := b1.extractLsb' 6 2

/-- Field `bbb`, bits 5:3 of the second byte (R83, R86). -/
def fieldBbb (b1 : Byte) : BitVec 3 := b1.extractLsb' 3 3

/-- Field `rrr`, bits 2:0 of the second byte (R83, R87). -/
def fieldRrr (b1 : Byte) : BitVec 3 := b1.extractLsb' 0 3

/-- The ResetBit row that `rrr` selects (R87). -/
def resetRow (n : Nat) (rrr : BitVec 3) : Instr :=
  if rrr = 0b000#3 then .resB n
  else if rrr = 0b001#3 then .resC n
  else if rrr = 0b010#3 then .resD n
  else if rrr = 0b011#3 then .resE n
  else if rrr = 0b100#3 then .resH n
  else if rrr = 0b101#3 then .resL n
  else if rrr = 0b110#3 then .resHL n
  else .resA n

/-- The SetBit row that `rrr` selects (R87). -/
def setRow (n : Nat) (rrr : BitVec 3) : Instr :=
  if rrr = 0b000#3 then .setB n
  else if rrr = 0b001#3 then .setC n
  else if rrr = 0b010#3 then .setD n
  else if rrr = 0b011#3 then .setE n
  else if rrr = 0b100#3 then .setH n
  else if rrr = 0b101#3 then .setL n
  else if rrr = 0b110#3 then .setHL n
  else .setA n

/-- `Decode(b0, b1)`: total, reads and writes no state, and rejects by name every byte pair other
than the 128 encodings (R88, R89). -/
def decode (b0 b1 : Byte) : Except UnknownOpcode Instr :=
  if b0 = cbByte then
    if fieldTt b1 = 0b10#2 then .ok (resetRow (fieldBbb b1).toNat (fieldRrr b1))
    else if fieldTt b1 = 0b11#2 then .ok (setRow (fieldBbb b1).toNat (fieldRrr b1))
    else .error (.bytePair b0 b1)
  else .error (.firstByte b0)

/-- The `tt` code of an instruction (R85). -/
def Instr.tt : Instr → BitVec 2
  | .resB _ | .resC _ | .resD _ | .resE _ | .resH _ | .resL _ | .resHL _ | .resA _ => 0b10#2
  | .setB _ | .setC _ | .setD _ | .setE _ | .setH _ | .setL _ | .setHL _ | .setA _ => 0b11#2

/-- The `rrr` code of an instruction (R87). -/
def Instr.rrr : Instr → BitVec 3
  | .resB _ | .setB _ => 0b000#3
  | .resC _ | .setC _ => 0b001#3
  | .resD _ | .setD _ => 0b010#3
  | .resE _ | .setE _ => 0b011#3
  | .resH _ | .setH _ => 0b100#3
  | .resL _ | .setL _ => 0b101#3
  | .resHL _ | .setHL _ => 0b110#3
  | .resA _ | .setA _ => 0b111#3

/-- The two bytes of a well-formed instruction, the first at the lower address (R83, R84). -/
def encode (i : Instr) : Byte × Byte :=
  (cbByte, i.tt ++ BitVec.ofNat 3 i.bitIndex ++ i.rrr)

/-- A row of spec/opcode_table.json over the 16-bit value with byte 0 in bits 15:8 (R96). -/
structure OpcodeRow where
  mnemonic : String
  matchWord : Word
  mask : Word
  deriving DecidableEq, Repr

/-- The sixteen rows of spec/opcode_table.json: its "mnemonic", "match" and "mask" keys (R96). -/
def opcodeTable : List OpcodeRow :=
  [⟨"RES_n_B", 0xCB80#16, 0xFFC7#16⟩, ⟨"RES_n_C", 0xCB81#16, 0xFFC7#16⟩,
   ⟨"RES_n_D", 0xCB82#16, 0xFFC7#16⟩, ⟨"RES_n_E", 0xCB83#16, 0xFFC7#16⟩,
   ⟨"RES_n_H", 0xCB84#16, 0xFFC7#16⟩, ⟨"RES_n_L", 0xCB85#16, 0xFFC7#16⟩,
   ⟨"RES_n__HL", 0xCB86#16, 0xFFC7#16⟩, ⟨"RES_n_A", 0xCB87#16, 0xFFC7#16⟩] ++
  [⟨"SET_n_B", 0xCBC0#16, 0xFFC7#16⟩, ⟨"SET_n_C", 0xCBC1#16, 0xFFC7#16⟩,
   ⟨"SET_n_D", 0xCBC2#16, 0xFFC7#16⟩, ⟨"SET_n_E", 0xCBC3#16, 0xFFC7#16⟩,
   ⟨"SET_n_H", 0xCBC4#16, 0xFFC7#16⟩, ⟨"SET_n_L", 0xCBC5#16, 0xFFC7#16⟩,
   ⟨"SET_n__HL", 0xCBC6#16, 0xFFC7#16⟩, ⟨"SET_n_A", 0xCBC7#16, 0xFFC7#16⟩]

/-- A row is selected when the masked value is its match word (R96). -/
def OpcodeRow.selects (row : OpcodeRow) (b0 b1 : Byte) : Bool :=
  decide ((b0 ++ b1) &&& row.mask = row.matchWord)

/-- The mnemonic of an instruction's row in spec/opcode_table.json. -/
def Instr.mnemonic : Instr → String
  | .resB _ => "RES_n_B"
  | .resC _ => "RES_n_C"
  | .resD _ => "RES_n_D"
  | .resE _ => "RES_n_E"
  | .resH _ => "RES_n_H"
  | .resL _ => "RES_n_L"
  | .resHL _ => "RES_n__HL"
  | .resA _ => "RES_n_A"
  | .setB _ => "SET_n_B"
  | .setC _ => "SET_n_C"
  | .setD _ => "SET_n_D"
  | .setE _ => "SET_n_E"
  | .setH _ => "SET_n_H"
  | .setL _ => "SET_n_L"
  | .setHL _ => "SET_n__HL"
  | .setA _ => "SET_n_A"

/-- Byte `k` of an instruction whose table value is `w` with `nbits` bits. The table numbers byte 0
in the highest bits (R96: "byte 0 in bits 15:8"); a byte beyond `nbits` is zero (log 9). -/
def tableByte (nbits w k : Nat) : Byte :=
  if 8 * (k + 1) ≤ nbits then BitVec.ofNat 8 (w / 2 ^ (nbits - 8 * (k + 1))) else 0#8

/-- The instruction the decoder reads from a table value: its bytes laid out in ascending addresses
and given to `decode` (R83, R96; log 9). -/
def decodeTableWord (nbits w : Nat) : Option Instr :=
  match decode (tableByte nbits w 0) (tableByte nbits w 1) with
  | .ok i => some i
  | .error _ => none

end Sys2Proof
end

