-- ==== Sys2Proof/Config.lean ====
section
/-! DEFINITION. The parameters an implementation fixes (spec/00_scope.md R7, R8). The open ones are
opaque constants without a body: no proof can learn more of them than the spec's own constraints. -/

namespace Sys2Proof

/-- What a byte write made while `ready` is false stores: `NOTREADY_WRITE` (20_memory.md R68). -/
inductive NotReadyWrite where
  /-- The write stores as it does while ready. -/
  | perform
  /-- The write stores nothing. -/
  | drop
  deriving DecidableEq, Repr, Inhabited

/-- What a byte read made while `ready` is false returns: `NOTREADY_READ` (20_memory.md R68). -/
inductive NotReadyRead where
  /-- The read returns the cell. -/
  | cell
  /-- The read returns an arbitrary byte that no rule constrains. -/
  | draw
  deriving DecidableEq, Repr, Inhabited

namespace Config

/-- `CYC_RES_REG`: the cycle charge of a register-direct bit-reset (R7; 40_execute_contract.md R110). -/
def cycResReg : Nat := 2

/-- By how much `CYC_RES_MEM` exceeds the least value the spec allows it. OPEN (D8; log 7). -/
opaque cycResMemMargin : Nat

/-- `CYC_RES_MEM`: open, the one constraint is that it is larger than 2 (R8; log 7). -/
def cycResMem : Nat := 3 + cycResMemMargin

/-- `CYC_SET_REG`: open (R8; log 7). -/
opaque cycSetReg : Nat

/-- By how much `CYC_SET_MEM` exceeds the least value the spec allows it. OPEN (D9; log 7). -/
opaque cycSetMemMargin : Nat

/-- `CYC_SET_MEM`: open, the one constraint is that it is larger than `CYC_SET_REG` (R8; log 7). -/
def cycSetMem : Nat := cycSetReg + 1 + cycSetMemMargin

/-- `READY_AT_POWERON`: the value of `ready` after power-on. OPEN (R8, D12; log 2). -/
opaque readyAtPowerOn : Bool

/-- `RESET_CLEARS_READY`: whether MU's `reset()` sets `ready` to false. OPEN (R8, D13; log 3). -/
opaque resetClearsReady : Bool

/-- `NOTREADY_WRITE`. OPEN (R8, D14; log 4). -/
opaque notReadyWrite : NotReadyWrite

/-- `NOTREADY_READ`. OPEN (R8, D14; log 4). -/
opaque notReadyRead : NotReadyRead

/-- The free bytes that reads return while not ready under `draw`, numbered in the order they are
drawn: nothing constrains any of them (20_memory.md R68; log 5). -/
opaque freeByte : Nat → Byte

end Config
end Sys2Proof
end

