-- ==== Sys2Proof/Machine/State.lean ====
section
/-! DEFINITION. The machine's state, all of it (spec/10_state.md R20), the reasons a step can stop,
and the state after power-on (R38). -/

namespace Sys2Proof.Machine

/-- MU's cells as (address, byte) pairs; an unlisted cell reads as 0x00, what every cell holds after
power-on and after `reset()` (10_state.md R32, R38). -/
abbrev Memory := List Host.Cell

/-- The canonical form from address `lo` on: addresses at least `lo`, strictly rising and below
65536, and no entry equal to what an unlisted address reads as. -/
def Memory.wfFrom : Nat → Memory → Bool
  | _, [] => true
  | lo, (k, v) :: rest =>
    decide (lo ≤ k) && decide (k < 65536) && decide (v ≠ 0#8) && Memory.wfFrom (k + 1) rest

/-- The canonical form of memory: equal memories are equal lists. -/
def Memory.wf (m : Memory) : Bool := Memory.wfFrom 0 m

/-- The register file RF: the eight 8-bit registers, `sp`, `pc` and the cycle counter
(10_state.md R20, R21, R25 to R27). The pairs BC, DE, HL are views of it (R22). -/
structure RegFile where
  a : Byte
  b : Byte
  c : Byte
  d : Byte
  e : Byte
  h : Byte
  l : Byte
  /-- The flags register F, a plain 8-bit register (R24). -/
  f : Byte
  sp : Word
  pc : Word
  /-- `liet`, the cycles of the last executed instruction, a natural number (R27; log 8). -/
  liet : Nat
  deriving DecidableEq, Repr

/-- CORE's whole architectural state (10_state.md R20), and the model's own counter `draws`. -/
structure State where
  /-- The register file RF. -/
  rf : RegFile
  /-- The cells of the memory unit MU (R32). -/
  mem : Memory
  /-- MU's readiness flag (R33). -/
  ready : Bool
  /-- The model's own: how many free bytes reads made while not ready have drawn (log 5). -/
  draws : Nat
  deriving DecidableEq, Repr

/-- The rejections of 60_exceptions.md R151, CORE's only exceptional outcome. A rejected step changes
no state (R155), so a fault carries none. -/
inductive Fault where
  /-- Cause 1, BitIndexOutOfRange. Raised where a descriptor is constructed with a bit index outside
  0..7: by `exec` on an ill-formed instruction and by the host's `execute`; never by a step, whose
  decoder gives 3-bit indices. Safe: the spec itself rejects it. -/
  | bitIndexOutOfRange (n : Nat)
  /-- Cause 2, UnknownRegister. Raised where a descriptor or a host register access names an identity
  outside the enumerations; never by a step. Safe: the spec itself rejects it. -/
  | unknownRegister (id : RegId)
  /-- Cause 3, UnknownOpcode. Raised by `step` when the bytes fetched at `pc` are none of the 128
  encodings. Safe: it errs toward unprovable (R167). -/
  | unknownOpcode (pc : Word) (bytes : UnknownOpcode)
  deriving DecidableEq, Repr

/-- Refusals. Every instruction has its meaning, so no arm of `exec` uses one. -/
inductive Refusal where
  /-- The instruction has no meaning in the model yet. Raised by no arm. Safe: nothing follows. -/
  | notModelled (mnemonic : String)
  deriving DecidableEq, Repr

/-- CORE right after power-on (10_state.md R38; 70_reset_and_hazards.md R180): every cell zero, `ready`
the open parameter, every register of RF unspecified. R39 has a model treat those as free inputs, so
the register file, and the model's own counter, are arguments here and claims quantify over them. -/
def State.powerOn (rf : RegFile) (draws : Nat) : State :=
  { rf := rf, mem := [], ready := Config.readyAtPowerOn, draws := draws }

/-- The register values the model names for `State.reset`: DESIGN CHOICE, all zero; the spec gives
none (R39; log 1). No statement rests on them. -/
def RegFile.named : RegFile :=
  { a := 0, b := 0, c := 0, d := 0, e := 0, h := 0, l := 0, f := 0, sp := 0, pc := 0, liet := 0 }

/-- The machine right after power-on, with the register values of log 1 (log 11). -/
def State.reset : State := State.powerOn RegFile.named 0

end Sys2Proof.Machine
end

