-- ==== Sys2Proof/Machine/Flags.lean ====
section
/-! DEFINITION. The flags register. No instruction computes, sets or reads a flag (spec/10_state.md
R24, D22), so its two accesses, whole and unmasked, are all there is of flags. -/

namespace Sys2Proof.Machine

/-- Reading F returns all 8 bits as they were stored (R24). -/
def RegFile.readFlags (rf : RegFile) : Byte := rf.f

/-- Writing F stores all 8 bits; none is masked or reads as zero (R24). -/
def RegFile.writeFlags (rf : RegFile) (v : Byte) : RegFile := { rf with f := v }

end Sys2Proof.Machine
end

