-- ==== Sys2Proof/Machine/Ops.lean ====
section
/-! DEFINITION. The named operations over registers and memory: the cell list, the register file's
accessors (spec/10_state.md R22 to R31), the memory unit's six operations (spec/20_memory.md R52 to
R68), instruction fetch and the advance of `pc` (spec/40_execute_contract.md R101, R102), and the
rejection (spec/60_exceptions.md R151, R155). -/

namespace Sys2Proof.Machine

/-! ### Byte order helpers -/

/-- `v[15:8]`. -/
def hiByte (v : Word) : Byte := v.extractLsb' 8 8

/-- `v[7:0]`. -/
def loByte (v : Word) : Byte := v.extractLsb' 0 8

/-- `{hi, lo}`. -/
def joinBytes (hi lo : Byte) : Word := hi ++ lo

/-! ### The cell list -/

/-- What the cell at `a` holds; an unlisted cell holds 0x00 (10_state.md R38). -/
def Memory.read : Memory → Nat → Byte
  | [], _ => 0#8
  | (k, v) :: rest, a => if k = a then v else Memory.read rest a

/-- The list without any entry for `a`. -/
def Memory.erase : Memory → Nat → Memory
  | [], _ => []
  | (k, v) :: rest, a => if k = a then Memory.erase rest a else (k, v) :: Memory.erase rest a

/-- The list with an entry for `a` put before the first larger address. -/
def Memory.insert : Memory → Nat → Byte → Memory
  | [], a, v => [(a, v)]
  | (k, w) :: rest, a, v =>
    if a < k then (a, v) :: (k, w) :: rest else (k, w) :: Memory.insert rest a v

/-- The list after the cell at `a` is written: 0x00, what an unlisted cell reads as, is not listed. -/
def Memory.write (m : Memory) (a : Nat) (v : Byte) : Memory :=
  if v = 0#8 then Memory.erase m a else Memory.insert (Memory.erase m a) a v

/-! ### The register file -/

/-- `x[id]` (10_state.md R29). -/
def RegFile.get8 (rf : RegFile) : Reg8 → Byte
  | .A => rf.a
  | .B => rf.b
  | .C => rf.c
  | .D => rf.d
  | .E => rf.e
  | .H => rf.h
  | .L => rf.l
  | .F => rf.readFlags

/-- `x[id] <- v` (10_state.md R29): no other register changes. -/
def RegFile.set8 (rf : RegFile) (r : Reg8) (v : Byte) : RegFile :=
  match r with
  | .A => { rf with a := v }
  | .B => { rf with b := v }
  | .C => { rf with c := v }
  | .D => { rf with d := v }
  | .E => { rf with e := v }
  | .H => { rf with h := v }
  | .L => { rf with l := v }
  | .F => rf.writeFlags v

/-- `hi(p)`: the first-named register of a pair is its high byte (R22; 00_scope.md R11). -/
def pairHi : Pair → Reg8
  | .BC => .B
  | .DE => .D
  | .HL => .H

/-- `lo(p)` (00_scope.md R11). -/
def pairLo : Pair → Reg8
  | .BC => .C
  | .DE => .E
  | .HL => .L

/-- `rp[p]`, a view of two registers (10_state.md R22). -/
def RegFile.getPair (rf : RegFile) (p : Pair) : Word :=
  joinBytes (rf.get8 (pairHi p)) (rf.get8 (pairLo p))

/-- `rp[p] <- v`: both halves at once (10_state.md R22). -/
def RegFile.setPair (rf : RegFile) (p : Pair) (v : Word) : RegFile :=
  (rf.set8 (pairHi p) (hiByte v)).set8 (pairLo p) (loByte v)

/-- `get16` (10_state.md R30). -/
def RegFile.get16 (rf : RegFile) : Reg16 → Word
  | .BC => rf.getPair .BC
  | .DE => rf.getPair .DE
  | .HL => rf.getPair .HL
  | .SP => rf.sp
  | .PC => rf.pc

/-- `set16` (10_state.md R30). -/
def RegFile.set16 (rf : RegFile) (r : Reg16) (v : Word) : RegFile :=
  match r with
  | .BC => rf.setPair .BC v
  | .DE => rf.setPair .DE v
  | .HL => rf.setPair .HL v
  | .SP => { rf with sp := v }
  | .PC => { rf with pc := v }

/-- The Reg8 an identity names, if it names one (10_state.md R28). -/
def reg8OfId : RegId → Option Reg8
  | .A => some .A
  | .B => some .B
  | .C => some .C
  | .D => some .D
  | .E => some .E
  | .H => some .H
  | .L => some .L
  | .F => some .F
  | .BC | .DE | .HL | .SP | .PC | .other _ => none

/-- The pair an identity names, if it names one (10_state.md R22). -/
def pairOfId : RegId → Option Pair
  | .BC => some .BC
  | .DE => some .DE
  | .HL => some .HL
  | .A | .B | .C | .D | .E | .H | .L | .F | .SP | .PC | .other _ => none

/-- The Reg16 an identity names, if it names one (10_state.md R28). -/
def reg16OfId : RegId → Option Reg16
  | .BC => some .BC
  | .DE => some .DE
  | .HL => some .HL
  | .SP => some .SP
  | .PC => some .PC
  | .A | .B | .C | .D | .E | .H | .L | .F | .other _ => none

/-- Charge: `liet <- cost`, overwriting and never adding (40_execute_contract.md R109). -/
def State.charge (cost : Nat) (s : State) : State := { s with rf := { s.rf with liet := cost } }

/-! ### The memory unit -/

/-- `mem[a]` (00_scope.md R11). -/
def State.cell (s : State) (a : Word) : Byte := s.mem.read a.toNat

/-- `mem[a] <- v` (00_scope.md R11). -/
def State.setCell (s : State) (a : Word) (v : Byte) : State :=
  { s with mem := s.mem.write a.toNat v }

/-- A free byte, and the state in which the next one drawn is another (20_memory.md R68; log 5). -/
def State.drawByte (s : State) : Byte × State :=
  (Config.freeByte s.draws, { s with draws := s.draws + 1 })

/-- `readByte`: the cell while ready (20_memory.md R52); while not ready what `NOTREADY_READ` says
(R68; log 4). Total: no address and no readiness state is an error (R51). -/
def State.readByte (s : State) (a : Word) : Byte × State :=
  if s.ready then (s.cell a, s)
  else
    match Config.notReadyRead with
    | .cell => (s.cell a, s)
    | .draw => s.drawByte

/-- `writeByte`: one cell written while ready (20_memory.md R53); while not ready what
`NOTREADY_WRITE` says (R68; log 4). -/
def State.writeByte (s : State) (a : Word) (v : Byte) : State :=
  if s.ready then s.setCell a v
  else
    match Config.notReadyWrite with
    | .perform => s.setCell a v
    | .drop => s

/-- `readWord`: little-endian, the second byte at `a +_16 1` (20_memory.md R54, R56). -/
def State.readWord (s : State) (a : Word) : Word × State :=
  let lo := s.readByte a
  let hi := lo.2.readByte (a + 1#16)
  (joinBytes hi.1 lo.1, hi.2)

/-- `writeWord`: the low byte at `a`, the high byte at `a +_16 1` (20_memory.md R55, R56). -/
def State.writeWord (s : State) (a : Word) (v : Word) : State :=
  (s.writeByte a (loByte v)).writeByte (a + 1#16) (hiByte v)

/-- MU's `reset()`: every cell zero, `ready` cleared if `RESET_CLEARS_READY`, RF untouched; not gated
by `ready` (20_memory.md R65; log 3). -/
def State.resetMemory (s : State) : State :=
  { s with mem := [], ready := if Config.resetClearsReady then false else s.ready }

/-- `setSystemReady(flag)`: `ready` and nothing else (20_memory.md R66). -/
def State.setSystemReady (s : State) (flag : Bool) : State := { s with ready := flag }

/-! ### Fetch, advance, rejection -/

/-- Fetch: the bytes at `pc` and `pc +_16 1`, both by `readByte` and before anything is written
(40_execute_contract.md R101; 20_memory.md R75; log 6). -/
def State.fetch (s : State) : Byte × Byte × State :=
  let first := s.readByte s.rf.pc
  let second := first.2.readByte (s.rf.pc + 1#16)
  (first.1, second.1, second.2)

/-- `pc <- pc +_16 2` (40_execute_contract.md R102). -/
def State.advancePc (s : State) : State := { s with rf := { s.rf with pc := s.rf.pc + 2#16 } }

/-- The rejection, CORE's one exceptional outcome, for every place that raises it: it saves nothing,
changes nothing and goes nowhere (60_exceptions.md R151, R155). There is no return from it (R156). -/
def reject (r : Fault) : Host.Outcome State Fault Refusal := .fault r

/-- The numeric code of a rejection's cause (60_exceptions.md R151). -/
def causeCode : Fault → Nat
  | .bitIndexOutOfRange _ => 1
  | .unknownRegister _ => 2
  | .unknownOpcode _ _ => 3

/-! ### Construction -/

/-- Check (1) of 30_encoding.md R82: bind the bit index, or reject it; never clamp it. -/
def constructTransform : RawTransform → Except Fault Transform
  | .resetBit n => if h : n < 8 then .ok (.resetBit ⟨n, h⟩) else .error (.bitIndexOutOfRange n)
  | .setBit n => if h : n < 8 then .ok (.setBit ⟨n, h⟩) else .error (.bitIndexOutOfRange n)

/-- Checks (2) and (3) of 30_encoding.md R82: bind the operand's identity, or reject it. -/
def constructMode : RawMode → Except Fault Mode
  | .registerDirect id =>
    match reg8OfId id with
    | some r => .ok (.registerDirect r)
    | none => .error (.unknownRegister id)
  | .memoryIndirect id =>
    match pairOfId id with
    | some p => .ok (.memoryIndirect p)
    | none => .error (.unknownRegister id)

/-- Construction of a descriptor; when several checks fail the bit index is reported first
(60_exceptions.md R158). -/
def construct (d : RawDescriptor) : Except Fault Descriptor :=
  match constructTransform d.xf with
  | .error r => .error r
  | .ok xf =>
    match constructMode d.mode with
    | .error r => .error r
    | .ok mode => .ok ⟨xf, mode⟩

end Sys2Proof.Machine
end

