-- ==== Sys2Proof/Machine/Operands.lean ====
section
/-! DEFINITION. AMUX: how an addressing mode reads and writes its operand, phases 1 and 3 of the
execution contract (spec/40_execute_contract.md R105 to R107). -/

namespace Sys2Proof.Machine

/-- The effective address of `MemoryIndirect(p)`: the pair's present value, no offset, no scaling
(R106). -/
def State.effectiveAddress (s : State) (p : Pair) : Word := s.rf.getPair p

/-- `Load(mode)` (R105, R106): the operand, and the state after the read. -/
def load (m : Mode) (s : State) : Byte × State :=
  match m with
  | .registerDirect r => (s.rf.get8 r, s)
  | .memoryIndirect p => s.readByte (s.effectiveAddress p)

/-- `Store(mode, w)` (R107): back to where the load read from; no phase changes the pair, so the
address is the load's. -/
def store (m : Mode) (w : Byte) (s : State) : State :=
  match m with
  | .registerDirect r => { s with rf := s.rf.set8 r w }
  | .memoryIndirect p => s.writeByte (s.effectiveAddress p) w

end Sys2Proof.Machine
end

