-- ==== Sys2Proof/Machine/Execute.lean ====
section
/-! DEFINITION. ALU and the execute stage: the transforms, the cost table and the four phases, once
for every transform and mode (spec/40_execute_contract.md R104 to R116). -/

namespace Sys2Proof.Machine

/-- The one-bit mask `1 << n` (00_scope.md R10). -/
def bitMask (n : Fin 8) : Byte := 1#8 <<< n.val

/-- `Transform(xf, v)` (R108; 41_bit_reset.md R120; 42_bit_set.md R130). -/
def transform (xf : Transform) (v : Byte) : Byte :=
  match xf with
  | .resetBit n => v &&& ~~~ bitMask n
  | .setBit n => v ||| bitMask n

/-- `Cost(xf, mode)`: by family and kind of mode only (R110). -/
def cost (xf : Transform) (m : Mode) : Nat :=
  match xf, m with
  | .resetBit _, .registerDirect _ => Config.cycResReg
  | .resetBit _, .memoryIndirect _ => Config.cycResMem
  | .setBit _, .registerDirect _ => Config.cycSetReg
  | .setBit _, .memoryIndirect _ => Config.cycSetMem

/-- `Execute(Instr(xf, mode))`: load, transform, store, charge (R104). It raises nothing (R116) and
does not touch `pc` (R102). -/
def execute (d : Descriptor) (s : State) : State :=
  let loaded := load d.mode s
  let w := transform d.xf loaded.1
  let stored := store d.mode w loaded.2
  stored.charge (cost d.xf d.mode)

/-- Construct, then execute; an ill-formed descriptor is rejected and never executes
(30_encoding.md R82; 60_exceptions.md R152). -/
def constructAndExecute (d : RawDescriptor) (s : State) : Host.Outcome State Fault Refusal :=
  match construct d with
  | .ok built => .next (execute built s)
  | .error r => reject r

end Sys2Proof.Machine
end

