-- ==== Sys2Proof/Machine/BitReset.lean ====
section
/-! DEFINITION. The bit-reset family's meanings, one per row of spec/opcode_table.json
(spec/41_bit_reset.md R120 to R124). -/

namespace Sys2Proof.Machine

/-- RES n,B (41_bit_reset.md R121). -/
def execResB (n : Nat) (s : State) : Host.Outcome State Fault Refusal :=
  constructAndExecute ⟨.resetBit n, .registerDirect .B⟩ s

/-- RES n,C (41_bit_reset.md R121). -/
def execResC (n : Nat) (s : State) : Host.Outcome State Fault Refusal :=
  constructAndExecute ⟨.resetBit n, .registerDirect .C⟩ s

/-- RES n,D (41_bit_reset.md R121). -/
def execResD (n : Nat) (s : State) : Host.Outcome State Fault Refusal :=
  constructAndExecute ⟨.resetBit n, .registerDirect .D⟩ s

/-- RES n,E (41_bit_reset.md R121). -/
def execResE (n : Nat) (s : State) : Host.Outcome State Fault Refusal :=
  constructAndExecute ⟨.resetBit n, .registerDirect .E⟩ s

/-- RES n,H (41_bit_reset.md R121). -/
def execResH (n : Nat) (s : State) : Host.Outcome State Fault Refusal :=
  constructAndExecute ⟨.resetBit n, .registerDirect .H⟩ s

/-- RES n,L (41_bit_reset.md R121). -/
def execResL (n : Nat) (s : State) : Host.Outcome State Fault Refusal :=
  constructAndExecute ⟨.resetBit n, .registerDirect .L⟩ s

/-- RES n,(HL) (41_bit_reset.md R122). -/
def execResHL (n : Nat) (s : State) : Host.Outcome State Fault Refusal :=
  constructAndExecute ⟨.resetBit n, .memoryIndirect .HL⟩ s

/-- RES n,A (41_bit_reset.md R121). -/
def execResA (n : Nat) (s : State) : Host.Outcome State Fault Refusal :=
  constructAndExecute ⟨.resetBit n, .registerDirect .A⟩ s

end Sys2Proof.Machine
end

