-- ==== Sys2Proof/Machine/BitSet.lean ====
section
/-! DEFINITION. The set-bit family's meanings, one per row of spec/opcode_table.json
(spec/42_bit_set.md R130 to R134). -/

namespace Sys2Proof.Machine

/-- SET n,B (42_bit_set.md R131). -/
def execSetB (n : Nat) (s : State) : Host.Outcome State Fault Refusal :=
  constructAndExecute ⟨.setBit n, .registerDirect .B⟩ s

/-- SET n,C (42_bit_set.md R131). -/
def execSetC (n : Nat) (s : State) : Host.Outcome State Fault Refusal :=
  constructAndExecute ⟨.setBit n, .registerDirect .C⟩ s

/-- SET n,D (42_bit_set.md R131). -/
def execSetD (n : Nat) (s : State) : Host.Outcome State Fault Refusal :=
  constructAndExecute ⟨.setBit n, .registerDirect .D⟩ s

/-- SET n,E (42_bit_set.md R131). -/
def execSetE (n : Nat) (s : State) : Host.Outcome State Fault Refusal :=
  constructAndExecute ⟨.setBit n, .registerDirect .E⟩ s

/-- SET n,H (42_bit_set.md R131). -/
def execSetH (n : Nat) (s : State) : Host.Outcome State Fault Refusal :=
  constructAndExecute ⟨.setBit n, .registerDirect .H⟩ s

/-- SET n,L (42_bit_set.md R131). -/
def execSetL (n : Nat) (s : State) : Host.Outcome State Fault Refusal :=
  constructAndExecute ⟨.setBit n, .registerDirect .L⟩ s

/-- SET n,(HL) (42_bit_set.md R132). -/
def execSetHL (n : Nat) (s : State) : Host.Outcome State Fault Refusal :=
  constructAndExecute ⟨.setBit n, .memoryIndirect .HL⟩ s

/-- SET n,A (42_bit_set.md R131). -/
def execSetA (n : Nat) (s : State) : Host.Outcome State Fault Refusal :=
  constructAndExecute ⟨.setBit n, .registerDirect .A⟩ s

end Sys2Proof.Machine
end

