-- ==== Sys2Proof/Machine/Dispatch.lean ====
section
/-! DEFINITION. exec: one arm per constructor of Instr, each one direct call of its meaning. It is the
execute stage alone; fetch, decode and the advance of `pc` are Step.lean's. -/

namespace Sys2Proof.Machine

def exec (i : Instr) (s : State) : Host.Outcome State Fault Refusal :=
  match i with
  | .resB n => Sys2Proof.Machine.execResB n s
  | .resC n => Sys2Proof.Machine.execResC n s
  | .resD n => Sys2Proof.Machine.execResD n s
  | .resE n => Sys2Proof.Machine.execResE n s
  | .resH n => Sys2Proof.Machine.execResH n s
  | .resL n => Sys2Proof.Machine.execResL n s
  | .resHL n => Sys2Proof.Machine.execResHL n s
  | .resA n => Sys2Proof.Machine.execResA n s
  | .setB n => Sys2Proof.Machine.execSetB n s
  | .setC n => Sys2Proof.Machine.execSetC n s
  | .setD n => Sys2Proof.Machine.execSetD n s
  | .setE n => Sys2Proof.Machine.execSetE n s
  | .setH n => Sys2Proof.Machine.execSetH n s
  | .setL n => Sys2Proof.Machine.execSetL n s
  | .setHL n => Sys2Proof.Machine.execSetHL n s
  | .setA n => Sys2Proof.Machine.execSetA n s

end Sys2Proof.Machine
end

