-- ==== Sys2Proof/Machine/Step.lean ====
section
/-! DEFINITION. The step: fetch, decode, advance `pc`, execute (spec/40_execute_contract.md R100), and
the placing of one instruction for the next step. -/

namespace Sys2Proof.Machine

/-- One step (R100). A rejection by `Decode` is reported with the value of `pc` and the byte or bytes
(60_exceptions.md R151), and changes no state (R103). -/
def step (s : State) : Host.Outcome State Fault Refusal :=
  match s.fetch with
  | (b0, b1, fetched) =>
    match decode b0 b1 with
    | .ok i => exec i fetched.advancePc
    | .error bytes => reject (.unknownOpcode s.rf.pc bytes)

/-- `s` as the host leaves it when it has booted the machine with one instruction at `pc`: `ready` true
and the instruction's two bytes in memory, in that order (70_reset_and_hazards.md R183; log 10). -/
def State.withFetchWord (s : State) (nbits w : Nat) : State :=
  ((s.setSystemReady true).setCell s.rf.pc (tableByte nbits w 0)).setCell (s.rf.pc + 1#16)
    (tableByte nbits w 1)

end Sys2Proof.Machine
end

