-- ==== Sys2Proof/Machine/HostInterface.lean ====
section
/-! DEFINITION. The host interface, complete (spec/70_reset_and_hazards.md R191): every way anything
outside CORE can act on it or observe it. Each operation is atomic and stands between two steps
(R189), so a session of the host is a list of operations. -/

namespace Sys2Proof.Machine

/-- The host's operations (R191). Register identities come unchecked (60_exceptions.md R165);
addresses and values have the widths of the ports (20_memory.md R76; log 17). -/
inductive HostOp where
  | step
  | execute (d : RawDescriptor)
  | readByte (a : Word)
  | writeByte (a : Word) (v : Byte)
  | readWord (a : Word)
  | writeWord (a : Word) (v : Word)
  | reset
  | setSystemReady (flag : Bool)
  | readyStatus
  | get8 (id : RegId)
  | set8 (id : RegId) (v : Byte)
  | get16 (id : RegId)
  | set16 (id : RegId) (v : Word)
  | getLastInstructionExecutionTime
  deriving DecidableEq, Repr

/-- What an operation hands back to the host (R191). -/
inductive HostResult where
  /-- No result. -/
  | done
  /-- A step's outcome `Next`. -/
  | stepped
  | byte (v : Byte)
  | word (v : Word)
  | flag (b : Bool)
  | cycles (n : Nat)
  /-- `Rejected(cause, info)`. -/
  | rejected (r : Fault)
  /-- A step that the model refuses; no operation answers it. -/
  | refused (r : Refusal)
  deriving DecidableEq, Repr

/-- The host's view of an outcome: a rejection leaves the state as it was (60_exceptions.md R155). -/
def settleOutcome (s : State) (ok : HostResult) :
    Host.Outcome State Fault Refusal → State × HostResult
  | .next t => (t, ok)
  | .fault r => (s, .rejected r)
  | .refused r => (s, .refused r)

/-- `get8(id)` (10_state.md R29; 60_exceptions.md R165). -/
def hostGet8 (id : RegId) (s : State) : State × HostResult :=
  match reg8OfId id with
  | some r => (s, .byte (s.rf.get8 r))
  | none => (s, .rejected (.unknownRegister id))

/-- `set8(id, v)` (10_state.md R29; 60_exceptions.md R165). -/
def hostSet8 (id : RegId) (v : Byte) (s : State) : State × HostResult :=
  match reg8OfId id with
  | some r => ({ s with rf := s.rf.set8 r v }, .done)
  | none => (s, .rejected (.unknownRegister id))

/-- `get16(id)` (10_state.md R30; 60_exceptions.md R165). -/
def hostGet16 (id : RegId) (s : State) : State × HostResult :=
  match reg16OfId id with
  | some r => (s, .word (s.rf.get16 r))
  | none => (s, .rejected (.unknownRegister id))

/-- `set16(id, v)` (10_state.md R30; 60_exceptions.md R165). -/
def hostSet16 (id : RegId) (v : Word) (s : State) : State × HostResult :=
  match reg16OfId id with
  | some r => ({ s with rf := s.rf.set16 r v }, .done)
  | none => (s, .rejected (.unknownRegister id))

/-- One operation of the host: the state it leaves and the result it hands back (R191). -/
def hostOp (op : HostOp) (s : State) : State × HostResult :=
  match op with
  | .step => settleOutcome s .stepped (step s)
  | .execute d => settleOutcome s .done (constructAndExecute d s)
  | .readByte a => ((s.readByte a).2, .byte (s.readByte a).1)
  | .writeByte a v => (s.writeByte a v, .done)
  | .readWord a => ((s.readWord a).2, .word (s.readWord a).1)
  | .writeWord a v => (s.writeWord a v, .done)
  | .reset => (s.resetMemory, .done)
  | .setSystemReady flag => (s.setSystemReady flag, .done)
  | .readyStatus => (s, .flag s.ready)
  | .get8 id => hostGet8 id s
  | .set8 id v => hostSet8 id v s
  | .get16 id => hostGet16 id s
  | .set16 id v => hostSet16 id v s
  | .getLastInstructionExecutionTime => (s, .cycles s.rf.liet)

/-- A session: the host's operations in order, with their results (R189, R190). A rejection does not
end it; the host may recover (60_exceptions.md R156). -/
def hostSession : List HostOp → State → State × List HostResult
  | [], s => (s, [])
  | op :: rest, s =>
    let now := hostOp op s
    let later := hostSession rest now.1
    (later.1, now.2 :: later.2)

end Sys2Proof.Machine
end

