-- ==== Sys2Proof/Safety.lean ====
section
/-! DEFINITION. What a safe run is: no step of it is rejected (spec/60_exceptions.md R167), under the
launch premises of spec/70_reset_and_hazards.md R194; and the invariant every step keeps. -/

namespace Sys2Proof.Machine

/-- The first `k` steps from `s` are all accepted (R167: a run that meets a rejection has failed). -/
def SafeFor : Nat → State → Bool
  | 0, _ => true
  | k + 1, s =>
    match step s with
    | .next t => SafeFor k t
    | .fault _ => false
    | .refused _ => false

/-- The invariant of the model's state: memory is in its canonical form. -/
def State.Inv (s : State) : Prop := s.mem.wf = true

/-- The launch premise a claim about a program names (R182, R194): `ready` is true. -/
def State.Launch (s : State) : Prop := s.ready = true

/-- An outcome with its next state mapped, for comparing two runs. -/
def mapNext (g : State → State) :
    Host.Outcome State Fault Refusal → Host.Outcome State Fault Refusal
  | .next t => .next (g t)
  | .fault r => .fault r
  | .refused r => .refused r

end Sys2Proof.Machine
end

