-- ==== Sys2Proof/Certificates/Slice0/Obligations.lean ====
section
/-! DEFINITION. The statements about the machine, for the provers. Each docstring names the rules of
spec/ it formalises; "derived" marks one that rests on spec sections or on a logged choice. -/

open Sys2Proof Sys2Proof.Machine

/-! ### Words the statements share -/

/-- The operand of each value of `rrr`, as 30_encoding.md R87 lists them. -/
def Sys2Proof.Statement.operandOfCode : Nat → RawMode
  | 0 => .registerDirect .B
  | 1 => .registerDirect .C
  | 2 => .registerDirect .D
  | 3 => .registerDirect .E
  | 4 => .registerDirect .H
  | 5 => .registerDirect .L
  | 6 => .memoryIndirect .HL
  | _ => .registerDirect .A

/-- Everything but the cells is the same in two states. -/
def Sys2Proof.Statement.SameButCells (s t : State) : Prop :=
  t.rf = s.rf ∧ t.ready = s.ready ∧ t.draws = s.draws

/-- The byte a read at `a` made while not ready gives, and the model's counter after it, for every
setting of the open parameter. -/
def Sys2Proof.Statement.notReadyRead (s : State) (a : Word) : Byte × Nat :=
  match Config.notReadyRead with
  | .cell => (s.cell a, s.draws)
  | .draw => (Config.freeByte s.draws, s.draws + 1)

/-- The cells after a write of `v` at `a` made while not ready, for every setting of the open
parameter. -/
def Sys2Proof.Statement.notReadyWrite (s : State) (a : Word) (v : Byte) : Memory :=
  match Config.notReadyWrite with
  | .perform => s.mem.write a.toNat v
  | .drop => s.mem

open Sys2Proof.Statement

/-! ### Encoding -/

/-- Words written out from 30_encoding.md R92 and 95_test_vectors.md 2.3 (derived). -/
def Obligations.DecodesTheSpecsExampleWords : Prop :=
  decode 0xCB#8 0x80#8 = .ok (.resB 0) ∧ decode 0xCB#8 0x87#8 = .ok (.resA 0) ∧
  decode 0xCB#8 0x86#8 = .ok (.resHL 0) ∧ decode 0xCB#8 0xBF#8 = .ok (.resA 7) ∧
  decode 0xCB#8 0x9E#8 = .ok (.resHL 3) ∧ decode 0xCB#8 0xC0#8 = .ok (.setB 0) ∧
  decode 0xCB#8 0xC7#8 = .ok (.setA 0) ∧ decode 0xCB#8 0xE6#8 = .ok (.setHL 4) ∧
  decode 0xCB#8 0xFF#8 = .ok (.setA 7) ∧ decode 0xCB#8 0xCB#8 = .ok (.setE 1) ∧
  decode 0xCB#8 0x7F#8 = .error (.bytePair 0xCB#8 0x7F#8) ∧
  decode 0xCB#8 0x00#8 = .error (.bytePair 0xCB#8 0x00#8) ∧
  decode 0xCC#8 0x80#8 = .error (.firstByte 0xCC#8)

/-- Decoding the encoding of any well-formed instruction gives it back, every bit index included
(derived: 30_encoding.md R83 to R88, the spec's own decisions D4 and D5, log 14). -/
def Obligations.DecodeOfEncodeIsTheInstruction : Prop :=
  ∀ i : Instr, i.wellFormed = true → decode (encode i).1 (encode i).2 = .ok i

/-- Encoding what was decoded gives the bytes back: no bit of a word is dropped
(derived: 30_encoding.md R83, R88, the spec's own decision D4, log 14). -/
def Obligations.EncodeOfDecodeIsTheBytes : Prop :=
  ∀ (b0 b1 : Byte) (i : Instr), decode b0 b1 = .ok i → encode i = (b0, b1)

/-- `Decode` in full: rejection on the first byte, rejection by `tt`, the two transforms with their
bit index and operand; every descriptor decoded is well-formed, and different accepted byte pairs
give different descriptors (derived: 30_encoding.md R84, R85, R87, R88, which are the spec's own
decisions D4 and D5, log 14). -/
def Obligations.DecodeReadsItsThreeFields : Prop :=
  (∀ b0 b1 : Byte, b0 ≠ 0xCB#8 → decode b0 b1 = .error (.firstByte b0)) ∧
  (∀ b1 : Byte, b1.toNat < 0x80 → decode 0xCB#8 b1 = .error (.bytePair 0xCB#8 b1)) ∧
  (∀ (b1 : Byte) (n rrr : Nat), n < 8 → rrr < 8 → b1.toNat = 0x80 + 8 * n + rrr →
    ∃ i, decode 0xCB#8 b1 = .ok i ∧ i.descriptor = ⟨.resetBit n, operandOfCode rrr⟩) ∧
  (∀ (b1 : Byte) (n rrr : Nat), n < 8 → rrr < 8 → b1.toNat = 0xC0 + 8 * n + rrr →
    ∃ i, decode 0xCB#8 b1 = .ok i ∧ i.descriptor = ⟨.setBit n, operandOfCode rrr⟩) ∧
  (∀ (b0 b1 : Byte) (i : Instr), decode b0 b1 = .ok i → i.descriptor.wellFormed = true) ∧
  (∀ (b0 b1 c0 c1 : Byte) (i j : Instr), decode b0 b1 = .ok i → decode c0 c1 = .ok j →
    i.descriptor = j.descriptor → b0 = c0 ∧ b1 = c1)

/-- The rows of spec/opcode_table.json and the decoder agree: an accepted pair selects the row of its
instruction's mnemonic, a selected row's pair is accepted with that mnemonic, and no pair selects two
rows (derived: 30_encoding.md R96). -/
def Obligations.OpcodeTableRowsAgreeWithDecode : Prop :=
  (∀ (b0 b1 : Byte) (i : Instr), decode b0 b1 = .ok i →
    ∃ row ∈ opcodeTable, row.mnemonic = i.mnemonic ∧ row.selects b0 b1 = true) ∧
  (∀ (b0 b1 : Byte), ∀ row ∈ opcodeTable, row.selects b0 b1 = true →
    ∃ i, decode b0 b1 = .ok i ∧ i.mnemonic = row.mnemonic) ∧
  (∀ (b0 b1 : Byte), ∀ row ∈ opcodeTable, ∀ other ∈ opcodeTable,
    row.selects b0 b1 = true → other.selects b0 b1 = true → row = other)

/-! ### The step -/

/-- A step runs the decoded instruction with `pc` moved past its two bytes, and is rejected with the
value of `pc` and the reported bytes when decode rejects; while ready the bytes are the cells at `pc`
and `pc +_16 1` and fetching changes nothing (derived: 40_execute_contract.md R100, whose fetch and `pc` parts are
the spec's own decisions D2, D3 and D29, log 14). -/
def Obligations.StepRunsTheDecodedInstruction : Prop :=
  ∀ (s f : State) (b0 b1 : Byte),
    (s.ready = true → s.fetch = (s.cell s.rf.pc, s.cell (s.rf.pc + 1#16), s)) ∧
    (s.fetch = (b0, b1, f) →
      (∀ i, decode b0 b1 = .ok i →
        step s = exec i { f with rf := { f.rf with pc := f.rf.pc + 2#16 } }) ∧
      (∀ e, decode b0 b1 = .error e → step s = .fault (.unknownOpcode s.rf.pc e)))

/-- Fetch at the top of memory: at `pc = 0xFFFF` the second byte comes from address 0x0000 and an
accepted step leaves `pc` at 0x0001 (derived: 40_execute_contract.md R101, R102, the spec's own
decision D3, log 14). -/
def Obligations.FetchWrapsAtTheTopOfMemory : Prop :=
  ∀ s : State, s.ready = true → s.rf.pc = 0xFFFF#16 →
    s.fetch = (s.cell 0xFFFF#16, s.cell 0x0000#16, s) ∧
    (∀ t, step s = .next t → t.rf.pc = 0x0001#16)

/-- Every fetched pair that is one of the 128 encodings steps to a next state, whatever `ready` and the
rest of the state are (derived: 40_execute_contract.md R116; 70_reset_and_hazards.md R195). -/
def Obligations.StepCompletesOnEveryEncoding : Prop :=
  ∀ (s : State), s.fetch.1 = 0xCB#8 → 0x80 ≤ s.fetch.2.1.toNat → ∃ t, step s = .next t

/-- Every other byte pair is illegal: the step is rejected as UnknownOpcode, on the first byte if it is
not the prefix and else on the pair, and the host finds the state as it was (derived: 30_encoding.md
R89, the spec's own decision D6, log 13). -/
def Obligations.StepRejectsEveryOtherBytePair : Prop :=
  ∀ (s : State) (b0 b1 : Byte), s.fetch.1 = b0 → s.fetch.2.1 = b1 →
    (b0 ≠ 0xCB#8 →
      step s = .fault (.unknownOpcode s.rf.pc (.firstByte b0)) ∧
      hostOp .step s = (s, .rejected (.unknownOpcode s.rf.pc (.firstByte b0)))) ∧
    (b0 = 0xCB#8 → b1.toNat < 0x80 →
      step s = .fault (.unknownOpcode s.rf.pc (.bytePair b0 b1)) ∧
      hostOp .step s = (s, .rejected (.unknownOpcode s.rf.pc (.bytePair b0 b1))))

/-- After an accepted step `pc` is its old value plus 2 modulo 65536, and no instruction's execution
writes `pc` (derived: 40_execute_contract.md R102, the spec's own decisions D3 and D29, log 14). -/
def Obligations.AcceptedStepAdvancesPcByTwo : Prop :=
  (∀ s t : State, step s = .next t → t.rf.pc = s.rf.pc + 2#16) ∧
  (∀ (i : Instr) (s t : State), exec i s = .next t → t.rf.pc = s.rf.pc)

/-- What one accepted step writes: besides `pc` (moved by 2) and `liet` (one of the four costs), at most
one 8-bit register other than F and no cell, or no 8-bit register and at most the cell at HL; `sp`, F and
`ready` keep their values (derived: 10_state.md R34, R40; 40_execute_contract.md R102, R112; the advance
of `pc` is the spec's own decision D3, log 14). -/
def Obligations.AcceptedStepWritesOnePlace : Prop :=
  ∀ s t : State, step s = .next t →
    t.rf.pc = s.rf.pc + 2#16 ∧
    t.rf.sp = s.rf.sp ∧ t.rf.f = s.rf.f ∧ t.ready = s.ready ∧
    (t.rf.liet = 2 ∨ t.rf.liet = Config.cycResMem ∨ t.rf.liet = Config.cycSetReg ∨
      t.rf.liet = Config.cycSetMem) ∧
    ((t.mem = s.mem ∧ ∃ r : Reg8, r ≠ .F ∧ ∀ q, q ≠ r → t.rf.get8 q = s.rf.get8 q) ∨
     ((∀ q, t.rf.get8 q = s.rf.get8 q) ∧
      ∀ a, a ≠ s.effectiveAddress .HL → t.cell a = s.cell a))

/-- A run of `k` accepted steps, from any state: `pc` has moved by `2 * k`, `sp`, F and `ready` are
untouched, and the run is safe exactly when no step of it is rejected
(derived: 40_execute_contract.md R117; 60_exceptions.md R167). -/
def Obligations.RunsAdvanceSequentially : Prop :=
  (∀ (k : Nat) (s t : State), Host.Core.run Sys2Proof.core k s = .next t →
    t.rf.pc = s.rf.pc + BitVec.ofNat 16 (2 * k) ∧ t.rf.sp = s.rf.sp ∧ t.rf.f = s.rf.f ∧
    t.ready = s.ready) ∧
  (∀ (k : Nat) (s : State),
    SafeFor k s = true ↔ ∃ t, Host.Core.run Sys2Proof.core k s = .next t)

/-! ### Results of the instructions, which are also their completion statements -/

/-- RES n,r: bit `n` of the register is cleared, `liet` is 2 and nothing else changes; F as operand at the
descriptor level only; the rejections at construction; the encodings (41_bit_reset.md R121). Names
resB, resC, resD, resE, resH, resL, resA. -/
def Obligations.ResRegisterDirectResult : Prop :=
  (∀ (n : Nat) (s : State), n < 8 →
    exec (.resB n) s = .next
      { s with rf := { s.rf with b := s.rf.b &&& ~~~ (1#8 <<< n), liet := 2 } } ∧
    exec (.resC n) s = .next
      { s with rf := { s.rf with c := s.rf.c &&& ~~~ (1#8 <<< n), liet := 2 } } ∧
    exec (.resD n) s = .next
      { s with rf := { s.rf with d := s.rf.d &&& ~~~ (1#8 <<< n), liet := 2 } } ∧
    exec (.resE n) s = .next
      { s with rf := { s.rf with e := s.rf.e &&& ~~~ (1#8 <<< n), liet := 2 } } ∧
    exec (.resH n) s = .next
      { s with rf := { s.rf with h := s.rf.h &&& ~~~ (1#8 <<< n), liet := 2 } } ∧
    exec (.resL n) s = .next
      { s with rf := { s.rf with l := s.rf.l &&& ~~~ (1#8 <<< n), liet := 2 } } ∧
    exec (.resA n) s = .next
      { s with rf := { s.rf with a := s.rf.a &&& ~~~ (1#8 <<< n), liet := 2 } } ∧
    constructAndExecute ⟨.resetBit n, .registerDirect .F⟩ s = .next
      { s with rf := { s.rf with f := s.rf.f &&& ~~~ (1#8 <<< n), liet := 2 } }) ∧
  (∀ n : Nat, n < 8 →
    encode (.resB n) = (0xCB#8, BitVec.ofNat 8 (0x80 + 8 * n + 0)) ∧
    encode (.resC n) = (0xCB#8, BitVec.ofNat 8 (0x80 + 8 * n + 1)) ∧
    encode (.resD n) = (0xCB#8, BitVec.ofNat 8 (0x80 + 8 * n + 2)) ∧
    encode (.resE n) = (0xCB#8, BitVec.ofNat 8 (0x80 + 8 * n + 3)) ∧
    encode (.resH n) = (0xCB#8, BitVec.ofNat 8 (0x80 + 8 * n + 4)) ∧
    encode (.resL n) = (0xCB#8, BitVec.ofNat 8 (0x80 + 8 * n + 5)) ∧
    encode (.resA n) = (0xCB#8, BitVec.ofNat 8 (0x80 + 8 * n + 7))) ∧
  (∀ (n : Nat) (id : RegId) (s : State), 8 ≤ n →
    constructAndExecute ⟨.resetBit n, .registerDirect id⟩ s = .fault (.bitIndexOutOfRange n)) ∧
  (∀ (n : Nat) (id : RegId) (s : State), n < 8 → id.isReg8 = false →
    constructAndExecute ⟨.resetBit n, .registerDirect id⟩ s = .fault (.unknownRegister id)) ∧
  (∀ (b0 b1 : Byte) (i : Instr), decode b0 b1 = .ok i → i.descriptor.mode ≠ .registerDirect .F)

/-- RES n,(pair), for each of the three pairs: read the byte at the pair's address, clear bit `n`, write it
back, charge `CYC_RES_MEM`, whatever `ready` is; while ready exactly that cell and `liet` change; BC and
DE at the descriptor level only; the rejections at construction; the encoding (41_bit_reset.md R122).
Names resHL. -/
def Obligations.ResMemoryIndirectResult : Prop :=
  (∀ (n : Nat) (s : State), n < 8 →
    exec (.resHL n) s = .next
      (((s.readByte (s.rf.h ++ s.rf.l)).2.writeByte (s.rf.h ++ s.rf.l)
        ((s.readByte (s.rf.h ++ s.rf.l)).1 &&& ~~~ (1#8 <<< n))).charge Config.cycResMem) ∧
    constructAndExecute ⟨.resetBit n, .memoryIndirect .BC⟩ s = .next
      (((s.readByte (s.rf.b ++ s.rf.c)).2.writeByte (s.rf.b ++ s.rf.c)
        ((s.readByte (s.rf.b ++ s.rf.c)).1 &&& ~~~ (1#8 <<< n))).charge Config.cycResMem) ∧
    constructAndExecute ⟨.resetBit n, .memoryIndirect .DE⟩ s = .next
      (((s.readByte (s.rf.d ++ s.rf.e)).2.writeByte (s.rf.d ++ s.rf.e)
        ((s.readByte (s.rf.d ++ s.rf.e)).1 &&& ~~~ (1#8 <<< n))).charge Config.cycResMem)) ∧
  (∀ (n : Nat) (s : State), n < 8 → s.ready = true →
    exec (.resHL n) s = .next
      { s with
        mem := s.mem.write (s.rf.h ++ s.rf.l : Word).toNat (s.cell (s.rf.h ++ s.rf.l) &&& ~~~ (1#8 <<< n))
        rf := { s.rf with liet := Config.cycResMem } } ∧
    constructAndExecute ⟨.resetBit n, .memoryIndirect .BC⟩ s = .next
      { s with
        mem := s.mem.write (s.rf.b ++ s.rf.c : Word).toNat (s.cell (s.rf.b ++ s.rf.c) &&& ~~~ (1#8 <<< n))
        rf := { s.rf with liet := Config.cycResMem } } ∧
    constructAndExecute ⟨.resetBit n, .memoryIndirect .DE⟩ s = .next
      { s with
        mem := s.mem.write (s.rf.d ++ s.rf.e : Word).toNat (s.cell (s.rf.d ++ s.rf.e) &&& ~~~ (1#8 <<< n))
        rf := { s.rf with liet := Config.cycResMem } }) ∧
  (∀ n : Nat, n < 8 → encode (.resHL n) = (0xCB#8, BitVec.ofNat 8 (0x86 + 8 * n))) ∧
  (∀ (n : Nat) (id : RegId) (s : State), 8 ≤ n →
    constructAndExecute ⟨.resetBit n, .memoryIndirect id⟩ s = .fault (.bitIndexOutOfRange n)) ∧
  (∀ (n : Nat) (id : RegId) (s : State), n < 8 → id.isPair = false →
    constructAndExecute ⟨.resetBit n, .memoryIndirect id⟩ s = .fault (.unknownRegister id)) ∧
  (∀ (b0 b1 : Byte) (i : Instr), decode b0 b1 = .ok i →
    i.descriptor.mode ≠ .memoryIndirect .BC ∧ i.descriptor.mode ≠ .memoryIndirect .DE) ∧
  2 < Config.cycResMem

/-- SET n,r: bit `n` of the register is set, `liet` is `CYC_SET_REG`, less than `CYC_SET_MEM`, and nothing
else changes; F as operand at the descriptor level only; the rejections at construction; the encodings
(42_bit_set.md R131). Names setB, setC, setD, setE, setH, setL, setA. -/
def Obligations.SetRegisterDirectResult : Prop :=
  (∀ (n : Nat) (s : State), n < 8 →
    exec (.setB n) s = .next
      { s with rf := { s.rf with b := s.rf.b ||| (1#8 <<< n), liet := Config.cycSetReg } } ∧
    exec (.setC n) s = .next
      { s with rf := { s.rf with c := s.rf.c ||| (1#8 <<< n), liet := Config.cycSetReg } } ∧
    exec (.setD n) s = .next
      { s with rf := { s.rf with d := s.rf.d ||| (1#8 <<< n), liet := Config.cycSetReg } } ∧
    exec (.setE n) s = .next
      { s with rf := { s.rf with e := s.rf.e ||| (1#8 <<< n), liet := Config.cycSetReg } } ∧
    exec (.setH n) s = .next
      { s with rf := { s.rf with h := s.rf.h ||| (1#8 <<< n), liet := Config.cycSetReg } } ∧
    exec (.setL n) s = .next
      { s with rf := { s.rf with l := s.rf.l ||| (1#8 <<< n), liet := Config.cycSetReg } } ∧
    exec (.setA n) s = .next
      { s with rf := { s.rf with a := s.rf.a ||| (1#8 <<< n), liet := Config.cycSetReg } } ∧
    constructAndExecute ⟨.setBit n, .registerDirect .F⟩ s = .next
      { s with rf := { s.rf with f := s.rf.f ||| (1#8 <<< n), liet := Config.cycSetReg } }) ∧
  (∀ n : Nat, n < 8 →
    encode (.setB n) = (0xCB#8, BitVec.ofNat 8 (0xC0 + 8 * n + 0)) ∧
    encode (.setC n) = (0xCB#8, BitVec.ofNat 8 (0xC0 + 8 * n + 1)) ∧
    encode (.setD n) = (0xCB#8, BitVec.ofNat 8 (0xC0 + 8 * n + 2)) ∧
    encode (.setE n) = (0xCB#8, BitVec.ofNat 8 (0xC0 + 8 * n + 3)) ∧
    encode (.setH n) = (0xCB#8, BitVec.ofNat 8 (0xC0 + 8 * n + 4)) ∧
    encode (.setL n) = (0xCB#8, BitVec.ofNat 8 (0xC0 + 8 * n + 5)) ∧
    encode (.setA n) = (0xCB#8, BitVec.ofNat 8 (0xC0 + 8 * n + 7))) ∧
  (∀ (n : Nat) (id : RegId) (s : State), 8 ≤ n →
    constructAndExecute ⟨.setBit n, .registerDirect id⟩ s = .fault (.bitIndexOutOfRange n)) ∧
  (∀ (n : Nat) (id : RegId) (s : State), n < 8 → id.isReg8 = false →
    constructAndExecute ⟨.setBit n, .registerDirect id⟩ s = .fault (.unknownRegister id)) ∧
  (∀ (b0 b1 : Byte) (i : Instr), decode b0 b1 = .ok i → i.descriptor.mode ≠ .registerDirect .F) ∧
  Config.cycSetReg < Config.cycSetMem

/-- SET n,(pair), for each of the three pairs: read the byte at the pair's address, set bit `n`, write it
back, charge `CYC_SET_MEM`, whatever `ready` is; while ready exactly that cell and `liet` change; BC and
DE at the descriptor level only; the rejections at construction; the encoding (42_bit_set.md R132).
Names setHL. -/
def Obligations.SetMemoryIndirectResult : Prop :=
  (∀ (n : Nat) (s : State), n < 8 →
    exec (.setHL n) s = .next
      (((s.readByte (s.rf.h ++ s.rf.l)).2.writeByte (s.rf.h ++ s.rf.l)
        ((s.readByte (s.rf.h ++ s.rf.l)).1 ||| (1#8 <<< n))).charge Config.cycSetMem) ∧
    constructAndExecute ⟨.setBit n, .memoryIndirect .BC⟩ s = .next
      (((s.readByte (s.rf.b ++ s.rf.c)).2.writeByte (s.rf.b ++ s.rf.c)
        ((s.readByte (s.rf.b ++ s.rf.c)).1 ||| (1#8 <<< n))).charge Config.cycSetMem) ∧
    constructAndExecute ⟨.setBit n, .memoryIndirect .DE⟩ s = .next
      (((s.readByte (s.rf.d ++ s.rf.e)).2.writeByte (s.rf.d ++ s.rf.e)
        ((s.readByte (s.rf.d ++ s.rf.e)).1 ||| (1#8 <<< n))).charge Config.cycSetMem)) ∧
  (∀ (n : Nat) (s : State), n < 8 → s.ready = true →
    exec (.setHL n) s = .next
      { s with
        mem := s.mem.write (s.rf.h ++ s.rf.l : Word).toNat (s.cell (s.rf.h ++ s.rf.l) ||| (1#8 <<< n))
        rf := { s.rf with liet := Config.cycSetMem } } ∧
    constructAndExecute ⟨.setBit n, .memoryIndirect .BC⟩ s = .next
      { s with
        mem := s.mem.write (s.rf.b ++ s.rf.c : Word).toNat (s.cell (s.rf.b ++ s.rf.c) ||| (1#8 <<< n))
        rf := { s.rf with liet := Config.cycSetMem } } ∧
    constructAndExecute ⟨.setBit n, .memoryIndirect .DE⟩ s = .next
      { s with
        mem := s.mem.write (s.rf.d ++ s.rf.e : Word).toNat (s.cell (s.rf.d ++ s.rf.e) ||| (1#8 <<< n))
        rf := { s.rf with liet := Config.cycSetMem } }) ∧
  (∀ n : Nat, n < 8 → encode (.setHL n) = (0xCB#8, BitVec.ofNat 8 (0xC6 + 8 * n))) ∧
  (∀ (n : Nat) (id : RegId) (s : State), 8 ≤ n →
    constructAndExecute ⟨.setBit n, .memoryIndirect id⟩ s = .fault (.bitIndexOutOfRange n)) ∧
  (∀ (n : Nat) (id : RegId) (s : State), n < 8 → id.isPair = false →
    constructAndExecute ⟨.setBit n, .memoryIndirect id⟩ s = .fault (.unknownRegister id)) ∧
  (∀ (b0 b1 : Byte) (i : Instr), decode b0 b1 = .ok i →
    i.descriptor.mode ≠ .memoryIndirect .BC ∧ i.descriptor.mode ≠ .memoryIndirect .DE) ∧
  Config.cycSetReg < Config.cycSetMem

/-- The memory forms while NOT ready run all the same, for every setting of the two open parameters: the
byte operated on is the cell or a free byte, and it is stored or dropped; so do the descriptors of
all three pairs (derived: 20_memory.md R68 under logs 4 and 5, the model's free bytes). Names resHL,
setHL. -/
def Obligations.MemoryFormsRunWhileNotReady : Prop :=
  (∀ (n : Nat) (s : State), n < 8 → s.ready = false →
    exec (.resHL n) s = .next
      { rf := { s.rf with liet := Config.cycResMem }
        mem := Statement.notReadyWrite s (s.rf.h ++ s.rf.l)
          ((Statement.notReadyRead s (s.rf.h ++ s.rf.l)).1 &&& ~~~ (1#8 <<< n))
        ready := false
        draws := (Statement.notReadyRead s (s.rf.h ++ s.rf.l)).2 } ∧
    exec (.setHL n) s = .next
      { rf := { s.rf with liet := Config.cycSetMem }
        mem := Statement.notReadyWrite s (s.rf.h ++ s.rf.l)
          ((Statement.notReadyRead s (s.rf.h ++ s.rf.l)).1 ||| (1#8 <<< n))
        ready := false
        draws := (Statement.notReadyRead s (s.rf.h ++ s.rf.l)).2 }) ∧
  (∀ (n : Nat) (id : RegId) (p : Pair) (a : Word) (s : State), n < 8 → s.ready = false →
    pairOfId id = some p → a = s.rf.get8 (pairHi p) ++ s.rf.get8 (pairLo p) →
    constructAndExecute ⟨.resetBit n, .memoryIndirect id⟩ s = .next
      { rf := { s.rf with liet := Config.cycResMem }
        mem := Statement.notReadyWrite s a
          ((Statement.notReadyRead s a).1 &&& ~~~ (1#8 <<< n))
        ready := false
        draws := (Statement.notReadyRead s a).2 } ∧
    constructAndExecute ⟨.setBit n, .memoryIndirect id⟩ s = .next
      { rf := { s.rf with liet := Config.cycSetMem }
        mem := Statement.notReadyWrite s a
          ((Statement.notReadyRead s a).1 ||| (1#8 <<< n))
        ready := false
        draws := (Statement.notReadyRead s a).2 })

/-- The execute stage raises nothing: every well-formed instruction and every constructed descriptor
answers a next state, in every state (40_execute_contract.md R116). Names all sixteen constructors. -/
def Obligations.EveryWellFormedInstructionCompletes : Prop :=
  (∀ (i : Instr) (s : State), i.wellFormed = true → ∃ t, exec i s = .next t) ∧
  (∀ (d : RawDescriptor) (b : Descriptor) (s : State), construct d = .ok b →
    constructAndExecute d s = .next (execute b s))

/-- An instruction whose bit index is outside 0..7 never executes: it is rejected with the offending
index (derived: 30_encoding.md R82; 60_exceptions.md R151; log 12). Names all sixteen constructors. -/
def Obligations.BitIndexOutOfRangeIsRejected : Prop :=
  ∀ (i : Instr) (s : State), 8 ≤ i.bitIndex →
    i.wellFormed = false ∧ exec i s = .fault (.bitIndexOutOfRange i.bitIndex)

/-- Executing a descriptor twice gives, while ready, the state that executing it once gave: the second
application changes nothing and `liet` is the same cost (derived: 40_execute_contract.md R113). -/
def Obligations.RepeatedExecutionChangesNothing : Prop :=
  ∀ (d : Descriptor) (s : State), s.ready = true → execute d (execute d s) = execute d s

/-! ### Frames -/

/-- What an executed descriptor leaves unchanged, and that it always writes `liet`; the address stored
to is the meaning's own `effectiveAddress` (40_execute_contract.md R112). -/
def Obligations.ExecutedDescriptorFrame : Prop :=
  (∀ (xf : Transform) (r : Reg8) (s : State),
    (∀ q, q ≠ r → (execute ⟨xf, .registerDirect r⟩ s).rf.get8 q = s.rf.get8 q) ∧
    (execute ⟨xf, .registerDirect r⟩ s).rf.sp = s.rf.sp ∧
    (execute ⟨xf, .registerDirect r⟩ s).rf.pc = s.rf.pc ∧
    (∀ a, (execute ⟨xf, .registerDirect r⟩ s).cell a = s.cell a) ∧
    (execute ⟨xf, .registerDirect r⟩ s).ready = s.ready ∧
    (execute ⟨xf, .registerDirect r⟩ s).rf.liet = cost xf (.registerDirect r)) ∧
  (∀ (xf : Transform) (p : Pair) (s : State),
    (∀ q, (execute ⟨xf, .memoryIndirect p⟩ s).rf.get8 q = s.rf.get8 q) ∧
    (execute ⟨xf, .memoryIndirect p⟩ s).rf.getPair p = s.rf.getPair p ∧
    (execute ⟨xf, .memoryIndirect p⟩ s).rf.sp = s.rf.sp ∧
    (execute ⟨xf, .memoryIndirect p⟩ s).rf.pc = s.rf.pc ∧
    (∀ a, a ≠ s.effectiveAddress p → (execute ⟨xf, .memoryIndirect p⟩ s).cell a = s.cell a) ∧
    (execute ⟨xf, .memoryIndirect p⟩ s).ready = s.ready ∧
    (execute ⟨xf, .memoryIndirect p⟩ s).rf.liet = cost xf (.memoryIndirect p))

/-- The frame of the fourteen register forms (resB to resL, resA, setB to setL, setA): every register
but the destination and `liet`, every cell, `ready` and the model's counter keep their values
(derived: 40_execute_contract.md R112; 10_state.md R40). -/
def Obligations.RegisterFormsFrame : Prop :=
  ∀ (i : Instr) (s t : State) (id : RegId) (r : Reg8),
    i.descriptor.mode = .registerDirect id → reg8OfId id = some r → exec i s = .next t →
    (∀ q, q ≠ r → t.rf.get8 q = s.rf.get8 q) ∧ t.rf.sp = s.rf.sp ∧ t.rf.pc = s.rf.pc ∧
    (∀ a, t.cell a = s.cell a) ∧ t.mem = s.mem ∧ t.ready = s.ready ∧ t.draws = s.draws

/-- The frame of the two memory forms (resHL, setHL): every register but `liet`, `ready`, and every
cell outside the one byte at the meaning's own `effectiveAddress` keep their values
(derived: 40_execute_contract.md R112; 10_state.md R40). -/
def Obligations.MemoryFormsFrame : Prop :=
  ∀ (n : Nat) (s t : State), exec (.resHL n) s = .next t ∨ exec (.setHL n) s = .next t →
    (∀ q, t.rf.get8 q = s.rf.get8 q) ∧ t.rf.sp = s.rf.sp ∧ t.rf.pc = s.rf.pc ∧
    (∀ a, a ≠ s.effectiveAddress .HL → t.cell a = s.cell a) ∧ t.ready = s.ready ∧
    (s.ready = true → t.draws = s.draws)

/-! ### Transforms -/

/-- ResetBit clears bit `n` and keeps every other bit; the eight masks; the source's two scenarios
(41_bit_reset.md R120). -/
def Obligations.ResetBitClearsOneBit : Prop :=
  (∀ (n : Fin 8) (v : Byte), transform (.resetBit n) v = v &&& ~~~ (1#8 <<< n.val) ∧
    (transform (.resetBit n) v).getLsbD n.val = false ∧
    (∀ k, k ≠ n.val → (transform (.resetBit n) v).getLsbD k = v.getLsbD k)) ∧
  (List.ofFn fun n : Fin 8 => transform (.resetBit n) 0xFF#8) =
    [0xFE#8, 0xFD#8, 0xFB#8, 0xF7#8, 0xEF#8, 0xDF#8, 0xBF#8, 0x7F#8] ∧
  transform (.resetBit 0) 0b00000011#8 = 0b00000010#8 ∧
  transform (.resetBit 0) 0b00000001#8 = 0#8

/-- SetBit sets bit `n` and keeps every other bit; the eight masks (42_bit_set.md R130). -/
def Obligations.SetBitSetsOneBit : Prop :=
  (∀ (n : Fin 8) (v : Byte), transform (.setBit n) v = v ||| (1#8 <<< n.val) ∧
    (transform (.setBit n) v).getLsbD n.val = true ∧
    (∀ k, k ≠ n.val → (transform (.setBit n) v).getLsbD k = v.getLsbD k)) ∧
  (List.ofFn fun n : Fin 8 => transform (.setBit n) 0#8) =
    [0x01#8, 0x02#8, 0x04#8, 0x08#8, 0x10#8, 0x20#8, 0x40#8, 0x80#8] ∧
  (∀ n : Nat, 8 ≤ n → constructTransform (.setBit n) = .error (.bitIndexOutOfRange n))

/-- The laws of ResetBit: idempotent, commuting, monotone with its exact value, and its relation to
SetBit; resetting all eight bits, in any order and however often, gives 0x00 (derived:
41_bit_reset.md R123, which the spec marks as its own inference from R120). -/
def Obligations.ResetBitLaws : Prop :=
  (∀ (n m : Fin 8) (v : Byte),
    transform (.resetBit n) (transform (.resetBit n) v) = transform (.resetBit n) v ∧
    transform (.resetBit m) (transform (.resetBit n) v) =
      transform (.resetBit n) (transform (.resetBit m) v) ∧
    (transform (.resetBit n) v).toNat ≤ v.toNat ∧
    (v.getLsbD n.val = true →
      (transform (.resetBit n) v).toNat + (1#8 <<< n.val).toNat = v.toNat) ∧
    (v.getLsbD n.val = false → transform (.resetBit n) v = v) ∧
    (transform (.resetBit n) v).getLsbD n.val = false ∧
    transform (.resetBit n) (v ||| (1#8 <<< n.val)) = transform (.resetBit n) v ∧
    transform (.setBit n) (transform (.resetBit n) v) = v ||| (1#8 <<< n.val)) ∧
  (∀ (l : List (Fin 8)) (v : Byte), (∀ n, n ∈ l) →
    l.foldl (fun w n => transform (.resetBit n) w) v = 0x00#8)

/-- The laws of SetBit: idempotent, commuting, monotone with its exact value; on different bits it
commutes with ResetBit and on one bit the later wins; setting all eight bits, in any order and however
often, gives 0xFF (derived: 42_bit_set.md R133, which the spec marks as its own inference from R130). -/
def Obligations.SetBitLaws : Prop :=
  (∀ (n m : Fin 8) (v : Byte),
    transform (.setBit n) (transform (.setBit n) v) = transform (.setBit n) v ∧
    transform (.setBit m) (transform (.setBit n) v) =
      transform (.setBit n) (transform (.setBit m) v) ∧
    v.toNat ≤ (transform (.setBit n) v).toNat ∧
    (v.getLsbD n.val = false →
      (transform (.setBit n) v).toNat = v.toNat + (1#8 <<< n.val).toNat) ∧
    (v.getLsbD n.val = true → transform (.setBit n) v = v) ∧
    (m ≠ n → transform (.setBit m) (transform (.resetBit n) v) =
      transform (.resetBit n) (transform (.setBit m) v)) ∧
    (transform (.setBit n) (transform (.resetBit n) v)).getLsbD n.val = true ∧
    (transform (.resetBit n) (transform (.setBit n) v)).getLsbD n.val = false) ∧
  (∀ (l : List (Fin 8)) (v : Byte), (∀ n, n ∈ l) →
    l.foldl (fun w n => transform (.setBit n) w) v = 0xFF#8)

/-! ### Cost -/

/-- The cost table: a function of the family and the kind of mode only, 2 for a register-direct
bit-reset, the three open constants elsewhere with their two inequalities; it is the charge of the
whole step, since fetch charges nothing of its own (derived: 40_execute_contract.md R110, in part the
spec's own decisions D8 to D11, log 7). -/
def Obligations.CostTable : Prop :=
  (∀ (n : Fin 8) (r : Reg8), cost (.resetBit n) (.registerDirect r) = 2) ∧
  (∀ (n : Fin 8) (p : Pair), cost (.resetBit n) (.memoryIndirect p) = Config.cycResMem) ∧
  (∀ (n : Fin 8) (r : Reg8), cost (.setBit n) (.registerDirect r) = Config.cycSetReg) ∧
  (∀ (n : Fin 8) (p : Pair), cost (.setBit n) (.memoryIndirect p) = Config.cycSetMem) ∧
  2 < Config.cycResMem ∧ Config.cycSetReg < Config.cycSetMem ∧
  (∀ (s t : State) (i : Instr), decode s.fetch.1 s.fetch.2.1 = .ok i → step s = .next t →
    ∃ d, construct i.descriptor = .ok d ∧ t.rf.liet = cost d.xf d.mode)

/-- Register-direct variants cost fewer cycles than memory-indirect ones, in every family, whatever the
bit indices and operands (40_execute_contract.md R111). -/
def Obligations.RegisterDirectIsCheaper : Prop :=
  ∀ (n m : Fin 8) (r : Reg8) (p : Pair),
    cost (.resetBit n) (.registerDirect r) < cost (.resetBit m) (.memoryIndirect p) ∧
    cost (.setBit n) (.registerDirect r) < cost (.setBit m) (.memoryIndirect p)

/-- Phase 4 overwrites `liet` with the variant's cost and never adds to it: what `liet` held before
changes nothing of the result, and the charge depends neither on the bit index nor on the state, so not
on the operand's value nor on what happened before (40_execute_contract.md R109). -/
def Obligations.ChargeOverwritesLiet : Prop :=
  (∀ (d : Descriptor) (s : State) (x : Nat),
    (execute d s).rf.liet = cost d.xf d.mode ∧
    execute d { s with rf := { s.rf with liet := x } } = execute d s) ∧
  (∀ (n m : Fin 8) (mode : Mode) (s u : State),
    (execute ⟨.resetBit n, mode⟩ s).rf.liet = (execute ⟨.resetBit m, mode⟩ u).rf.liet ∧
    (execute ⟨.setBit n, mode⟩ s).rf.liet = (execute ⟨.setBit m, mode⟩ u).rf.liet)

/-! ### Registers and the host's accessors -/

/-- The pairs are big-endian views of two registers, none holding A or F; pair and halves agree in
every order of access; one half is unchanged by a write of the other; and a RES or SET on H or L moves
the address a later (HL) form uses (10_state.md R22, R23). -/
def Obligations.PairsAreViewsOfTheirHalves : Prop :=
  (∀ rf : RegFile,
    (rf.getPair .BC).toNat = rf.b.toNat * 256 + rf.c.toNat ∧
    (rf.getPair .DE).toNat = rf.d.toNat * 256 + rf.e.toNat ∧
    (rf.getPair .HL).toNat = rf.h.toNat * 256 + rf.l.toNat) ∧
  (∀ (rf : RegFile) (p : Pair) (x y : Byte) (v : Word),
    pairHi p ≠ .A ∧ pairHi p ≠ .F ∧ pairLo p ≠ .A ∧ pairLo p ≠ .F ∧
    (((rf.set8 (pairHi p) x).set8 (pairLo p) y).getPair p).toNat = x.toNat * 256 + y.toNat ∧
    (((rf.set8 (pairLo p) y).set8 (pairHi p) x).getPair p).toNat = x.toNat * 256 + y.toNat ∧
    (rf.setPair p v).get8 (pairHi p) = v.extractLsb' 8 8 ∧
    (rf.setPair p v).get8 (pairLo p) = v.extractLsb' 0 8 ∧
    (rf.set8 (pairHi p) x).get8 (pairLo p) = rf.get8 (pairLo p) ∧
    (rf.set8 (pairLo p) y).get8 (pairHi p) = rf.get8 (pairHi p)) ∧
  (∀ (n : Nat) (s t : State),
    (exec (.resH n) s = .next t → t.effectiveAddress .HL = (s.rf.h &&& ~~~ (1#8 <<< n)) ++ s.rf.l) ∧
    (exec (.resL n) s = .next t → t.effectiveAddress .HL = s.rf.h ++ (s.rf.l &&& ~~~ (1#8 <<< n))) ∧
    (exec (.setH n) s = .next t → t.effectiveAddress .HL = (s.rf.h ||| (1#8 <<< n)) ++ s.rf.l) ∧
    (exec (.setL n) s = .next t → t.effectiveAddress .HL = s.rf.h ++ (s.rf.l ||| (1#8 <<< n))))

/-- `get8` returns the named register and changes nothing; `set8` writes it and changes nothing else; all
8 bits of F are stored (10_state.md R29). -/
def Obligations.HostByteRegisterAccess : Prop :=
  ∀ (s : State) (v : Byte),
    hostOp (.get8 .A) s = (s, .byte s.rf.a) ∧
    hostOp (.set8 .A v) s = ({ s with rf := { s.rf with a := v } }, .done) ∧
    hostOp (.get8 .B) s = (s, .byte s.rf.b) ∧
    hostOp (.set8 .B v) s = ({ s with rf := { s.rf with b := v } }, .done) ∧
    hostOp (.get8 .C) s = (s, .byte s.rf.c) ∧
    hostOp (.set8 .C v) s = ({ s with rf := { s.rf with c := v } }, .done) ∧
    hostOp (.get8 .D) s = (s, .byte s.rf.d) ∧
    hostOp (.set8 .D v) s = ({ s with rf := { s.rf with d := v } }, .done) ∧
    hostOp (.get8 .E) s = (s, .byte s.rf.e) ∧
    hostOp (.set8 .E v) s = ({ s with rf := { s.rf with e := v } }, .done) ∧
    hostOp (.get8 .H) s = (s, .byte s.rf.h) ∧
    hostOp (.set8 .H v) s = ({ s with rf := { s.rf with h := v } }, .done) ∧
    hostOp (.get8 .L) s = (s, .byte s.rf.l) ∧
    hostOp (.set8 .L v) s = ({ s with rf := { s.rf with l := v } }, .done) ∧
    hostOp (.get8 .F) s = (s, .byte s.rf.f) ∧
    hostOp (.set8 .F v) s = ({ s with rf := { s.rf with f := v } }, .done)

/-- `get16` and `set16`: the three pairs as two halves at once, SP and PC whole (10_state.md R30). -/
def Obligations.HostWordRegisterAccess : Prop :=
  ∀ (s : State) (v : Word),
    hostOp (.get16 .BC) s = (s, .word (s.rf.b ++ s.rf.c)) ∧
    hostOp (.set16 .BC v) s =
      ({ s with rf := { s.rf with b := v.extractLsb' 8 8, c := v.extractLsb' 0 8 } }, .done) ∧
    hostOp (.get16 .DE) s = (s, .word (s.rf.d ++ s.rf.e)) ∧
    hostOp (.set16 .DE v) s =
      ({ s with rf := { s.rf with d := v.extractLsb' 8 8, e := v.extractLsb' 0 8 } }, .done) ∧
    hostOp (.get16 .HL) s = (s, .word (s.rf.h ++ s.rf.l)) ∧
    hostOp (.set16 .HL v) s =
      ({ s with rf := { s.rf with h := v.extractLsb' 8 8, l := v.extractLsb' 0 8 } }, .done) ∧
    hostOp (.get16 .SP) s = (s, .word s.rf.sp) ∧
    hostOp (.set16 .SP v) s = ({ s with rf := { s.rf with sp := v } }, .done) ∧
    hostOp (.get16 .PC) s = (s, .word s.rf.pc) ∧
    hostOp (.set16 .PC v) s = ({ s with rf := { s.rf with pc := v } }, .done)

/-- A host register access with an identity outside Reg8, or Reg16, is rejected as UnknownRegister with
that identity and changes no state; no memory-unit operation is ever rejected
(derived: 60_exceptions.md R165, the spec's own decision D6, log 17). -/
def Obligations.UnknownIdentityIsRejected : Prop :=
  ∀ (s : State) (id : RegId) (v : Byte) (w : Word),
    (id.isReg8 = false →
      hostOp (.get8 id) s = (s, .rejected (.unknownRegister id)) ∧
      hostOp (.set8 id v) s = (s, .rejected (.unknownRegister id))) ∧
    (id.isPair = false → id ≠ .SP → id ≠ .PC →
      hostOp (.get16 id) s = (s, .rejected (.unknownRegister id)) ∧
      hostOp (.set16 id w) s = (s, .rejected (.unknownRegister id))) ∧
    (∀ (a : Word) (b : Bool) (r : Fault),
      (hostOp (.readByte a) s).2 ≠ .rejected r ∧ (hostOp (.writeByte a v) s).2 ≠ .rejected r ∧
      (hostOp (.readWord a) s).2 ≠ .rejected r ∧ (hostOp (.writeWord a w) s).2 ≠ .rejected r ∧
      (hostOp .reset s).2 ≠ .rejected r ∧ (hostOp (.setSystemReady b) s).2 ≠ .rejected r)

/-- The view of `liet` returns it and changes no state, so reading twice gives the same
(10_state.md R31). -/
def Obligations.LietViewChangesNothing : Prop :=
  ∀ s : State,
    hostOp .getLastInstructionExecutionTime s = (s, .cycles s.rf.liet) ∧
    hostSession [.getLastInstructionExecutionTime, .getLastInstructionExecutionTime] s =
      (s, [.cycles s.rf.liet, .cycles s.rf.liet])

/-- Who may write what, over every host operation: the "written by" column of the state table
(derived: 10_state.md R20, R25, R27, R34). -/
def Obligations.EachPieceOfStateHasItsWriters : Prop :=
  ∀ (op : HostOp) (s t : State), (hostOp op s).1 = t →
    (t.rf.sp ≠ s.rf.sp → ∃ v, op = .set16 .SP v) ∧
    (t.rf.f ≠ s.rf.f →
      (∃ v, op = .set8 .F v) ∨ ∃ xf, op = .execute ⟨xf, .registerDirect .F⟩) ∧
    (t.rf.pc ≠ s.rf.pc → op = .step ∨ ∃ v, op = .set16 .PC v) ∧
    (t.rf.liet ≠ s.rf.liet → op = .step ∨ ∃ d, op = .execute d) ∧
    (t.ready ≠ s.ready → (∃ b, op = .setSystemReady b) ∨ op = .reset) ∧
    (t.mem ≠ s.mem → op = .step ∨ (∃ xf id, op = .execute ⟨xf, .memoryIndirect id⟩) ∨
      (∃ a v, op = .writeByte a v) ∨ (∃ a v, op = .writeWord a v) ∨ op = .reset) ∧
    ((∃ r, t.rf.get8 r ≠ s.rf.get8 r) → op = .step ∨
      (∃ xf id, op = .execute ⟨xf, .registerDirect id⟩) ∨
      (∃ id v, op = .set8 id v) ∨ ∃ id v, op = .set16 id v)

/-! ### Operand access -/

/-- `Load` of a register operand is the register, and makes no memory access; `Load` through a pair is
one byte read at the pair's value; `Store` goes back to the place the load read, and storing the value
just loaded changes nothing (40_execute_contract.md R105, R106, R107). -/
def Obligations.LoadAndStoreUseOnePlace : Prop :=
  (∀ (r : Reg8) (s : State) (w : Byte),
    load (.registerDirect r) s = (s.rf.get8 r, s) ∧
    store (.registerDirect r) w s = { s with rf := s.rf.set8 r w } ∧
    store (.registerDirect r) (s.rf.get8 r) s = s) ∧
  (∀ (p : Pair) (s : State) (w : Byte),
    load (.memoryIndirect p) s = s.readByte (s.rf.get8 (pairHi p) ++ s.rf.get8 (pairLo p)) ∧
    store (.memoryIndirect p) w s =
      s.writeByte (s.rf.get8 (pairHi p) ++ s.rf.get8 (pairLo p)) w ∧
    (load (.memoryIndirect p) s).2.effectiveAddress p = s.effectiveAddress p ∧
    (s.Inv → s.ready = true →
      store (.memoryIndirect p) (load (.memoryIndirect p) s).1 s = s))

/-! ### The memory unit -/

/-- While ready, a byte read returns the cell and changes no state, and a byte write changes the one cell
and nothing else; what was written is read back (20_memory.md R52, R53). -/
def Obligations.ByteReadsAndWrites : Prop :=
  ∀ (s : State) (a : Word) (v : Byte), s.ready = true →
    hostOp (.readByte a) s = (s, .byte (s.cell a)) ∧
    hostOp (.writeByte a v) s = (s.writeByte a v, .done) ∧
    (s.writeByte a v).cell a = v ∧
    (∀ b, b ≠ a → (s.writeByte a v).cell b = s.cell b) ∧
    SameButCells s (s.writeByte a v) ∧
    hostOp (.readByte a) (s.writeByte a v) = (s.writeByte a v, .byte v)

/-- While ready, words are little-endian at any address, the second byte's address modulo 65536: reading
joins the two cells unsigned, writing changes those two cells only, and each undoes the other
(derived: 20_memory.md R54, R55, R57, and R56, the spec's own decision D15, log 16). -/
def Obligations.WordReadsAndWrites : Prop :=
  ∀ (s : State) (a v : Word) (lo hi : Byte), s.ready = true →
    hostOp (.readWord a) s = (s, .word (s.readWord a).1) ∧
    hostOp (.writeWord a v) s = (s.writeWord a v, .done) ∧
    (s.readWord a).2 = s ∧
    (s.readWord a).1.toNat = (s.cell (a + 1#16)).toNat * 256 + (s.cell a).toNat ∧
    (s.writeWord a v).cell a = v.extractLsb' 0 8 ∧
    (s.writeWord a v).cell (a + 1#16) = v.extractLsb' 8 8 ∧
    (∀ b, b ≠ a → b ≠ a + 1#16 → (s.writeWord a v).cell b = s.cell b) ∧
    SameButCells s (s.writeWord a v) ∧
    ((s.writeWord a v).readWord a).1 = v ∧
    (((s.writeByte a lo).writeByte (a + 1#16) hi).readWord a).1 = hi ++ lo ∧
    (a = 0xFFFF#16 → (s.writeWord a v).cell 0xFFFF#16 = v.extractLsb' 0 8 ∧
      (s.writeWord a v).cell 0x0000#16 = v.extractLsb' 8 8)

/-- Accesses while NOT ready are never an error and follow the two open parameters; words are
compositions of bytes; `reset()` and `setSystemReady` are not gated (derived: 20_memory.md R68; the two
parameters and the drawn byte are opaque, logs 4 and 5). -/
def Obligations.NotReadyAccessesFollowThePolicy : Prop :=
  ∀ (s : State) (a v : Word) (b : Byte) (flag : Bool), s.ready = false →
    s.readByte a = (match Config.notReadyRead with
      | .cell => (s.cell a, s)
      | .draw => (Config.freeByte s.draws, { s with draws := s.draws + 1 })) ∧
    s.writeByte a b = (match Config.notReadyWrite with
      | .perform => { s with mem := s.mem.write a.toNat b }
      | .drop => s) ∧
    s.readWord a = (((s.readByte a).2.readByte (a + 1#16)).1 ++ (s.readByte a).1,
      ((s.readByte a).2.readByte (a + 1#16)).2) ∧
    s.writeWord a v =
      (s.writeByte a (v.extractLsb' 0 8)).writeByte (a + 1#16) (v.extractLsb' 8 8) ∧
    s.resetMemory.mem = [] ∧ (s.setSystemReady flag).ready = flag

/-- `reset()` zeroes every cell whatever `ready` is, leaves RF alone, clears `ready` if and only if the
open parameter says so, and followed by `setSystemReady(true)` every byte reads zero
(derived: 20_memory.md R65, in part the spec's own decisions D13 and D19, logs 3 and 11). -/
def Obligations.ResetZeroesMemoryOnly : Prop :=
  ∀ (s : State) (a : Word),
    hostOp .reset s = (s.resetMemory, .done) ∧
    s.resetMemory.cell a = 0#8 ∧ s.resetMemory.rf = s.rf ∧
    s.resetMemory.ready = (if Config.resetClearsReady = true then false else s.ready) ∧
    (s.resetMemory.setSystemReady true).readByte a =
      (0#8, s.resetMemory.setSystemReady true)

/-- `setSystemReady(flag)` writes `ready` and nothing else, the value it already has changes nothing, and
no instruction can perform it (20_memory.md R66). -/
def Obligations.SetSystemReadyWritesReadyOnly : Prop :=
  (∀ (s : State) (flag : Bool),
    hostOp (.setSystemReady flag) s = ({ s with ready := flag }, .done) ∧
    hostOp (.setSystemReady s.ready) s = (s, .done)) ∧
  (∀ (i : Instr) (s t : State), exec i s = .next t → t.ready = s.ready)

/-- The ready state machine, complete: power-on, `setSystemReady`, `reset()`, and every other event
leaves the state as it is; after `reset()` then `setSystemReady(true)` MU is Ready and every cell zero;
the status line shows `ready` and changes nothing (derived: 20_memory.md R67; 10_state.md R34; in part
the spec's own decisions D12, D13 and D20, logs 2 and 3). -/
def Obligations.ReadyStateMachine : Prop :=
  (∀ (rf : RegFile) (k : Nat), (State.powerOn rf k).ready = Config.readyAtPowerOn) ∧
  (∀ (op : HostOp) (s : State), (hostOp op s).1.ready =
    match op with
    | .setSystemReady flag => flag
    | .reset => if Config.resetClearsReady then false else s.ready
    | .step | .execute _ | .readByte _ | .writeByte _ _ | .readWord _ | .writeWord _ _
    | .readyStatus | .get8 _ | .set8 _ _ | .get16 _ | .set16 _ _
    | .getLastInstructionExecutionTime => s.ready) ∧
  (∀ s : State, hostOp .readyStatus s = (s, .flag s.ready)) ∧
  (∀ (s : State) (a : Word),
    (hostSession [.reset, .setSystemReady true] s).1.ready = true ∧
    (hostSession [.reset, .setSystemReady true] s).1.cell a = 0#8)

/-- Memory in canonical form is determined by what its cells hold: equal memories are equal data
(derived: 10_state.md R32; the model's representation). -/
def Obligations.CanonicalMemoryIsExtensional : Prop :=
  ∀ m m' : Memory, m.wf = true → m'.wf = true → (∀ a, m.read a = m'.read a) → m = m'

/-- While ready, writing to a cell the value it holds changes nothing at all, and reading twice gives
the same (derived: 20_memory.md R61, under the model's canonical form). -/
def Obligations.RewritingAHeldValueChangesNothing : Prop :=
  ∀ (s : State) (a : Word), s.Inv → s.ready = true →
    s.writeByte a (s.cell a) = s ∧ hostSession [.readByte a, .readByte a] s =
      (s, [.byte (s.cell a), .byte (s.cell a)])

/-- A store is seen by the very next fetch: host writes, the (HL) forms' own store, and an instruction
that rewrites its own second byte, which runs as it was fetched and is rejected when fetched again
(derived: 20_memory.md R73; 95_test_vectors.md program 6). -/
def Obligations.StoresAreSeenByTheNextFetch : Prop :=
  (∀ (s : State) (b0 b1 : Byte) (i : Instr), s.ready = true → decode b0 b1 = .ok i →
    step ((s.writeByte s.rf.pc b0).writeByte (s.rf.pc + 1#16) b1) =
      exec i ((s.writeByte s.rf.pc b0).writeByte (s.rf.pc + 1#16) b1).advancePc) ∧
  (∀ (s t : State) (n : Nat), s.ready = true → s.rf.pc = s.effectiveAddress .HL →
    (exec (.resHL n) s = .next t → t.fetch.1 = s.cell s.rf.pc &&& ~~~ (1#8 <<< n)) ∧
    (exec (.setHL n) s = .next t → t.fetch.1 = s.cell s.rf.pc ||| (1#8 <<< n))) ∧
  (∀ s : State, s.ready = true → s.cell s.rf.pc = 0xCB#8 → s.cell (s.rf.pc + 1#16) = 0xBE#8 →
    s.effectiveAddress .HL = s.rf.pc + 1#16 →
    ∃ t, step s = .next t ∧ t.cell (s.rf.pc + 1#16) = 0x3E#8 ∧
      step { t with rf := { t.rf with pc := s.rf.pc } } =
        .fault (.unknownOpcode s.rf.pc (.bytePair 0xCB#8 0x3E#8)))

/-! ### Rejection -/

/-- Construction checks: it succeeds exactly on well-formed descriptors and then binds the very index
and identity asked for; a bad index is reported first, whatever the identity; decode reports a bad first
byte whatever the second; there are 176 well-formed descriptors (derived: 30_encoding.md R82; 60_exceptions.md R158; in part the
spec's own decisions D7 and D24, logs 12 and 15). -/
def Obligations.ConstructionChecksInOrder : Prop :=
  (∀ d : RawDescriptor, d.wellFormed = true ↔ ∃ b, construct d = .ok b) ∧
  (∀ (n : Nat) (mode : RawMode), 8 ≤ n →
    construct ⟨.resetBit n, mode⟩ = .error (.bitIndexOutOfRange n) ∧
    construct ⟨.setBit n, mode⟩ = .error (.bitIndexOutOfRange n)) ∧
  (∀ (n : Nat) (id : RegId), n < 8 →
    (id.isReg8 = false →
      construct ⟨.resetBit n, .registerDirect id⟩ = .error (.unknownRegister id) ∧
      construct ⟨.setBit n, .registerDirect id⟩ = .error (.unknownRegister id)) ∧
    (id.isPair = false →
      construct ⟨.resetBit n, .memoryIndirect id⟩ = .error (.unknownRegister id) ∧
      construct ⟨.setBit n, .memoryIndirect id⟩ = .error (.unknownRegister id))) ∧
  (∀ (n : Fin 8) (id : RegId) (r : Reg8), reg8OfId id = some r →
    construct ⟨.resetBit n.val, .registerDirect id⟩ = .ok ⟨.resetBit n, .registerDirect r⟩ ∧
    construct ⟨.setBit n.val, .registerDirect id⟩ = .ok ⟨.setBit n, .registerDirect r⟩) ∧
  (∀ (n : Fin 8) (id : RegId) (p : Pair), pairOfId id = some p →
    construct ⟨.resetBit n.val, .memoryIndirect id⟩ = .ok ⟨.resetBit n, .memoryIndirect p⟩ ∧
    construct ⟨.setBit n.val, .memoryIndirect id⟩ = .ok ⟨.setBit n, .memoryIndirect p⟩) ∧
  (∀ b0 b1 : Byte, b0 ≠ 0xCB#8 → decode b0 b1 = .error (.firstByte b0)) ∧
  (∃ l : List Descriptor, l.Nodup ∧ l.length = 176 ∧ ∀ d, d ∈ l)

/-- A rejection changes nothing, on any host operation, so the same operation is rejected again in the
same way until the host changes something (derived: 40_execute_contract.md R103; 60_exceptions.md R155;
the spec's own decision D6, log 13). While not ready under `NOTREADY_READ = draw` the repeat of a
rejected step is the model's choice: its fetch finds the same free bytes again (log 6, unsafe there). -/
def Obligations.RejectionChangesNothing : Prop :=
  ∀ (op : HostOp) (s : State) (r : Fault), (hostOp op s).2 = .rejected r →
    (hostOp op s).1 = s ∧ hostOp op (hostOp op s).1 = (s, .rejected r)

/-- Which cause can come from where: a step stops only with UnknownOpcode at the present `pc`, the code
being 3, and is never refused; construction stops only with the descriptor's own bit index, out of range
(code 1), or, the index being in range, with the descriptor's own identity, unknown in its mode (code 2)
(derived: 60_exceptions.md R151, R152). -/
def Obligations.RejectionCausesByLevel : Prop :=
  (∀ (s : State) (r : Fault), step s = .fault r →
    causeCode r = 3 ∧ ∃ e, r = .unknownOpcode s.rf.pc e ∧
      decode s.fetch.1 s.fetch.2.1 = .error e) ∧
  (∀ (s : State) (r : Refusal), step s ≠ .refused r) ∧
  (∀ (d : RawDescriptor) (s : State) (r : Fault), constructAndExecute d s = .fault r →
    ∃ n, (d.xf = .resetBit n ∨ d.xf = .setBit n) ∧
      ((causeCode r = 1 ∧ r = .bitIndexOutOfRange n ∧ 8 ≤ n) ∨
       (causeCode r = 2 ∧ n < 8 ∧ ∃ id, r = .unknownRegister id ∧
         ((d.mode = .registerDirect id ∧ id.isReg8 = false) ∨
          (d.mode = .memoryIndirect id ∧ id.isPair = false)))))

/-! ### Power-on and invariants -/

/-- After power-on every cell is zero and reads zero once ready, `ready` is the open parameter, and the
registers hold whatever they hold: any values at all (70_reset_and_hazards.md R180). The value of the
model's own counter is free too (log 5). -/
def Obligations.PowerOnState : Prop :=
  ∀ (rf : RegFile) (k : Nat) (a : Word),
    (State.powerOn rf k).cell a = 0#8 ∧
    ((State.powerOn rf k).setSystemReady true).readByte a =
      (0#8, (State.powerOn rf k).setSystemReady true) ∧
    (State.powerOn rf k).ready = Config.readyAtPowerOn ∧ (State.powerOn rf k).rf = rf

/-- The invariant holds after power-on with any register values, and so at `State.reset`
(derived: 10_state.md R32, R38; the register values of `State.reset` are the model's choice, log 1,
and nothing here rests on them). -/
def Obligations.ResetMeetsTheInvariant : Prop :=
  (∀ (rf : RegFile) (k : Nat), (State.powerOn rf k).Inv) ∧ State.reset.Inv

/-- Every step keeps memory in its canonical form: sorted, inside the 65,536 cells, no zero entry listed
(derived: 10_state.md R32; 20_memory.md R50). -/
def Obligations.StepKeepsTheInvariant : Prop :=
  ∀ s t : State, s.Inv → step s = .next t → t.Inv

/-- Every session of the host, from any state that meets the invariant, keeps it
(derived: 10_state.md R32; 70_reset_and_hazards.md R189, R191). -/
def Obligations.HostSessionsKeepTheInvariant : Prop :=
  ∀ (ops : List HostOp) (s : State), s.Inv → (hostSession ops s).1.Inv

/-- Under the launch premise that `ready` is true, a step neither reads nor moves the free bytes, so the
open readiness parameters cannot affect it (derived: 70_reset_and_hazards.md R194; log 5). -/
def Obligations.FreeBytesDoNotMatterWhileReady : Prop :=
  ∀ (s : State) (d : Nat), s.Launch →
    step { s with draws := d } = mapNext (fun t => { t with draws := d }) (step s) ∧
    ∀ t, step s = .next t → t.Launch ∧ t.draws = s.draws

/-- The placing of one instruction for the next step: the placed table value runs as the instruction it
decodes to, and placing it changes `ready` and the two cells at `pc` only
(derived: 70_reset_and_hazards.md R183 and the model's convention, logs 9 and 10). -/
def Obligations.PlacedInstructionRunsNext : Prop :=
  ∀ (s : State) (w : Nat),
    (∀ i, decodeTableWord 16 w = some i →
      step (s.withFetchWord 16 w) = exec i (s.withFetchWord 16 w).advancePc) ∧
    (s.withFetchWord 16 w).rf = s.rf ∧ (s.withFetchWord 16 w).ready = true ∧
    (s.withFetchWord 16 w).draws = s.draws ∧
    (∀ a, a ≠ s.rf.pc → a ≠ s.rf.pc + 1#16 → (s.withFetchWord 16 w).cell a = s.cell a)

/-! ### The host's operations run the machine -/

/-- Each host operation that acts through the machine is the machine's own operation, whatever `ready`
is: an accepted step or execution leaves its next state and a rejected one the state it found, with the
rejection; the memory unit's accesses leave and hand back what `readByte`, `writeByte`, `readWord` and
`writeWord` give; a session performs its operations in order (derived: 70_reset_and_hazards.md R189,
R191, the spec's own decisions D1 and D30, log 18). -/
def Obligations.HostOperationsRunTheMachine : Prop :=
  (∀ s t : State, step s = .next t → hostOp .step s = (t, .stepped)) ∧
  (∀ (s : State) (r : Fault), step s = .fault r → hostOp .step s = (s, .rejected r)) ∧
  (∀ (d : RawDescriptor) (s t : State), constructAndExecute d s = .next t →
    hostOp (.execute d) s = (t, .done)) ∧
  (∀ (d : RawDescriptor) (s : State) (r : Fault), constructAndExecute d s = .fault r →
    hostOp (.execute d) s = (s, .rejected r)) ∧
  (∀ (s : State) (a w : Word) (v : Byte),
    hostOp (.readByte a) s = ((s.readByte a).2, .byte (s.readByte a).1) ∧
    hostOp (.writeByte a v) s = (s.writeByte a v, .done) ∧
    hostOp (.readWord a) s = ((s.readWord a).2, .word (s.readWord a).1) ∧
    hostOp (.writeWord a w) s = (s.writeWord a w, .done)) ∧
  (∀ (ops more : List HostOp) (s : State),
    hostSession (ops ++ more) s =
      ((hostSession more (hostSession ops s).1).1,
        (hostSession ops s).2 ++ (hostSession more (hostSession ops s).1).2)) ∧
  (∀ (op : HostOp) (s : State), hostSession [op] s = ((hostOp op s).1, [(hostOp op s).2]))
end

