-- ==== Sys2Proof/Laws/Decode.lean ====
section
/-! SUPPORT. What the decoder can do, said once, and the small lemmas of fields, codes and
well-formedness. -/

namespace Sys2Proof

/-- For the rows of the opcode table the bit index is the whole of well-formedness (R82 (1)). -/
theorem Instr.wellFormed_iff (i : Instr) : i.wellFormed = true ↔ i.bitIndex < 8 := by
  cases i <;>
    simp [Instr.wellFormed, RawDescriptor.wellFormed, Instr.descriptor, Instr.bitIndex,
      RawTransform.wellFormed, RawMode.wellFormed, RegId.isReg8, RegId.isPair]

/-- An instruction is determined by its descriptor. -/
theorem Instr.descriptor_injective {i j : Instr} (h : i.descriptor = j.descriptor) : i = j := by
  cases i <;> cases j <;> simp_all [Instr.descriptor]

/-- The second byte is its three fields. -/
theorem fields_join (b1 : Byte) : fieldTt b1 ++ fieldBbb b1 ++ fieldRrr b1 = b1 := by
  revert b1
  decide

theorem fieldTt_join (tt : BitVec 2) (bbb rrr : BitVec 3) : fieldTt (tt ++ bbb ++ rrr) = tt := by
  revert tt bbb rrr
  decide
theorem fieldBbb_join (tt : BitVec 2) (bbb rrr : BitVec 3) : fieldBbb (tt ++ bbb ++ rrr) = bbb := by
  revert tt bbb rrr
  decide
theorem fieldRrr_join (tt : BitVec 2) (bbb rrr : BitVec 3) : fieldRrr (tt ++ bbb ++ rrr) = rrr := by
  revert tt bbb rrr
  decide

theorem code_cases (rrr : BitVec 3) :
    rrr = 0 ∨ rrr = 1 ∨ rrr = 2 ∨ rrr = 3 ∨ rrr = 4 ∨ rrr = 5 ∨ rrr = 6 ∨ rrr = 7 := by
  revert rrr
  decide

/-- The row chosen for a code carries that code, the family's `tt` and the bit index. -/
theorem resetRow_codes (n : Nat) (rrr : BitVec 3) :
    (resetRow n rrr).tt = 0b10#2 ∧ (resetRow n rrr).bitIndex = n ∧ (resetRow n rrr).rrr = rrr := by
  rcases code_cases rrr with h | h | h | h | h | h | h | h <;> subst h <;> exact ⟨rfl, rfl, rfl⟩

theorem setRow_codes (n : Nat) (rrr : BitVec 3) :
    (setRow n rrr).tt = 0b11#2 ∧ (setRow n rrr).bitIndex = n ∧ (setRow n rrr).rrr = rrr := by
  rcases code_cases rrr with h | h | h | h | h | h | h | h <;> subst h <;> exact ⟨rfl, rfl, rfl⟩

/-- If `decode` accepts, the first byte is the prefix and `tt` chose the family (R88). -/
theorem decode_ok_cases {b0 b1 : Byte} {i : Instr} (h : decode b0 b1 = .ok i) :
    b0 = cbByte ∧
      ((fieldTt b1 = 0b10#2 ∧ i = resetRow (fieldBbb b1).toNat (fieldRrr b1)) ∨
       (fieldTt b1 = 0b11#2 ∧ i = setRow (fieldBbb b1).toNat (fieldRrr b1))) := by
  unfold decode at h
  split at h
  · split at h
    · cases h
      exact ⟨‹_›, .inl ⟨‹_›, rfl⟩⟩
    · split at h
      · cases h
        exact ⟨‹_›, .inr ⟨‹_›, rfl⟩⟩
      · cases h
  · cases h

/-- A decoded bit index is a 3-bit field, so it is in range (R86). -/
theorem decode_ok_bitIndex {b0 b1 : Byte} {i : Instr} (h : decode b0 b1 = .ok i) :
    i.bitIndex < 8 := by
  obtain ⟨-, ⟨-, rfl⟩ | ⟨-, rfl⟩⟩ := decode_ok_cases h
  · rw [(resetRow_codes _ _).2.1]
    exact (fieldBbb b1).isLt
  · rw [(setRow_codes _ _).2.1]
    exact (fieldBbb b1).isLt

end Sys2Proof
end

