-- ==== Sys2Proof/Laws/State.lean ====
section
/-! SUPPORT. One lemma per field per update of the state, and the register file's read-after-write
laws, so that no later proof unfolds a record update. -/

namespace Sys2Proof.Machine

/-! ### charge -/

@[simp] theorem charge_mem (c : Nat) (s : State) : (s.charge c).mem = s.mem := rfl
@[simp] theorem charge_ready (c : Nat) (s : State) : (s.charge c).ready = s.ready := rfl
@[simp] theorem charge_draws (c : Nat) (s : State) : (s.charge c).draws = s.draws := rfl
@[simp] theorem charge_liet (c : Nat) (s : State) : (s.charge c).rf.liet = c := rfl
@[simp] theorem charge_pc (c : Nat) (s : State) : (s.charge c).rf.pc = s.rf.pc := rfl
@[simp] theorem charge_sp (c : Nat) (s : State) : (s.charge c).rf.sp = s.rf.sp := rfl
@[simp] theorem charge_cell (c : Nat) (s : State) (a : Word) : (s.charge c).cell a = s.cell a := rfl
@[simp] theorem charge_get8 (c : Nat) (s : State) (r : Reg8) :
    (s.charge c).rf.get8 r = s.rf.get8 r := by cases r <;> rfl
@[simp] theorem charge_getPair (c : Nat) (s : State) (p : Pair) :
    (s.charge c).rf.getPair p = s.rf.getPair p := by cases p <;> rfl

/-! ### setCell -/

@[simp] theorem setCell_rf (s : State) (a : Word) (v : Byte) : (s.setCell a v).rf = s.rf := rfl
@[simp] theorem setCell_ready (s : State) (a : Word) (v : Byte) :
    (s.setCell a v).ready = s.ready := rfl
@[simp] theorem setCell_draws (s : State) (a : Word) (v : Byte) :
    (s.setCell a v).draws = s.draws := rfl

/-! ### advancePc -/

@[simp] theorem advancePc_pc (s : State) : s.advancePc.rf.pc = s.rf.pc + 2#16 := rfl
@[simp] theorem advancePc_sp (s : State) : s.advancePc.rf.sp = s.rf.sp := rfl
@[simp] theorem advancePc_liet (s : State) : s.advancePc.rf.liet = s.rf.liet := rfl
@[simp] theorem advancePc_mem (s : State) : s.advancePc.mem = s.mem := rfl
@[simp] theorem advancePc_ready (s : State) : s.advancePc.ready = s.ready := rfl
@[simp] theorem advancePc_draws (s : State) : s.advancePc.draws = s.draws := rfl
@[simp] theorem advancePc_cell (s : State) (a : Word) : s.advancePc.cell a = s.cell a := rfl
@[simp] theorem advancePc_get8 (s : State) (r : Reg8) :
    s.advancePc.rf.get8 r = s.rf.get8 r := by cases r <;> rfl
@[simp] theorem advancePc_getPair (s : State) (p : Pair) :
    s.advancePc.rf.getPair p = s.rf.getPair p := by cases p <;> rfl

/-! ### setSystemReady and resetMemory -/

@[simp] theorem setSystemReady_rf (s : State) (b : Bool) : (s.setSystemReady b).rf = s.rf := rfl
@[simp] theorem setSystemReady_mem (s : State) (b : Bool) : (s.setSystemReady b).mem = s.mem := rfl
@[simp] theorem setSystemReady_ready (s : State) (b : Bool) : (s.setSystemReady b).ready = b := rfl
@[simp] theorem setSystemReady_draws (s : State) (b : Bool) :
    (s.setSystemReady b).draws = s.draws := rfl
@[simp] theorem setSystemReady_cell (s : State) (b : Bool) (a : Word) :
    (s.setSystemReady b).cell a = s.cell a := rfl
@[simp] theorem resetMemory_rf (s : State) : s.resetMemory.rf = s.rf := rfl
@[simp] theorem resetMemory_mem (s : State) : s.resetMemory.mem = [] := rfl
@[simp] theorem resetMemory_draws (s : State) : s.resetMemory.draws = s.draws := rfl

/-! ### powerOn -/

@[simp] theorem powerOn_rf (rf : RegFile) (k : Nat) : (State.powerOn rf k).rf = rf := rfl
@[simp] theorem powerOn_mem (rf : RegFile) (k : Nat) : (State.powerOn rf k).mem = [] := rfl
@[simp] theorem powerOn_ready (rf : RegFile) (k : Nat) :
    (State.powerOn rf k).ready = Config.readyAtPowerOn := rfl
@[simp] theorem powerOn_draws (rf : RegFile) (k : Nat) : (State.powerOn rf k).draws = k := rfl

/-! ### set8 -/

theorem get8_F (rf : RegFile) : rf.get8 .F = rf.f := rfl

@[simp] theorem get8_set8_same (rf : RegFile) (r : Reg8) (v : Byte) :
    (rf.set8 r v).get8 r = v := by cases r <;> rfl

theorem get8_set8_other (rf : RegFile) {r q : Reg8} (v : Byte) (h : q ≠ r) :
    (rf.set8 r v).get8 q = rf.get8 q := by
  cases r <;> cases q <;> first | rfl | exact absurd rfl h

@[simp] theorem set8_set8 (rf : RegFile) (r : Reg8) (v w : Byte) :
    (rf.set8 r v).set8 r w = rf.set8 r w := by cases r <;> rfl

@[simp] theorem set8_sp (rf : RegFile) (r : Reg8) (v : Byte) : (rf.set8 r v).sp = rf.sp := by
  cases r <;> rfl
@[simp] theorem set8_pc (rf : RegFile) (r : Reg8) (v : Byte) : (rf.set8 r v).pc = rf.pc := by
  cases r <;> rfl
@[simp] theorem set8_liet (rf : RegFile) (r : Reg8) (v : Byte) : (rf.set8 r v).liet = rf.liet := by
  cases r <;> rfl

end Sys2Proof.Machine
end

