-- ==== Sys2Proof/Laws/Memory.lean ====
section
/-! SUPPORT. The cell list: a read after a write, every other cell, and that each memory operation
keeps the canonical form. The read laws hold of every list, canonical or not. -/

namespace Sys2Proof.Machine

@[simp] theorem read_nil (a : Nat) : Memory.read [] a = 0#8 := rfl

@[simp] theorem read_erase_same (m : Memory) (a : Nat) : (m.erase a).read a = 0#8 := by
  induction m with
  | nil => rfl
  | cons c rest ih =>
    obtain ⟨k, v⟩ := c
    by_cases h : k = a <;> simp [Memory.erase, Memory.read, h, ih]

theorem read_erase_other (m : Memory) {a b : Nat} (h : b ≠ a) :
    (m.erase a).read b = m.read b := by
  induction m with
  | nil => rfl
  | cons c rest ih =>
    obtain ⟨k, v⟩ := c
    by_cases hk : k = a
    · have hb : k ≠ b := fun e => h (e.symm.trans hk)
      simp [Memory.erase, Memory.read, hk, ih, Ne.symm h]
    · simp [Memory.erase, Memory.read, hk, ih]

theorem read_insert_other (m : Memory) {a b : Nat} (v : Byte) (h : b ≠ a) :
    (m.insert a v).read b = m.read b := by
  induction m with
  | nil => simp [Memory.insert, Memory.read, Ne.symm h]
  | cons c rest ih =>
    obtain ⟨k, w⟩ := c
    by_cases hk : a < k <;> simp [Memory.insert, Memory.read, hk, ih, Ne.symm h]

/-- An inserted entry is read back when the list held none for its address, as an erased list does. -/
theorem read_insert_erase_same (m : Memory) (a : Nat) (v : Byte) :
    ((m.erase a).insert a v).read a = v := by
  induction m with
  | nil => simp [Memory.erase, Memory.insert, Memory.read]
  | cons c rest ih =>
    obtain ⟨k, w⟩ := c
    by_cases hk : k = a
    · simp [Memory.erase, hk, ih]
    · by_cases hl : a < k <;> simp [Memory.erase, Memory.insert, Memory.read, hk, hl, ih]

@[simp] theorem read_write_same (m : Memory) (a : Nat) (v : Byte) : (m.write a v).read a = v := by
  by_cases h : v = 0#8
  · simp [Memory.write, h]
  · simp [Memory.write, h, read_insert_erase_same]

theorem read_write_other (m : Memory) {a b : Nat} (v : Byte) (h : b ≠ a) :
    (m.write a v).read b = m.read b := by
  by_cases hv : v = 0#8
  · simp [Memory.write, hv, read_erase_other m h]
  · simp [Memory.write, hv, read_insert_other _ _ h, read_erase_other m h]

@[simp] theorem erase_erase (m : Memory) (a : Nat) : (m.erase a).erase a = m.erase a := by
  induction m with
  | nil => rfl
  | cons c rest ih =>
    obtain ⟨k, v⟩ := c
    by_cases h : k = a <;> simp [Memory.erase, h, ih]

@[simp] theorem erase_insert (m : Memory) (a : Nat) (v : Byte) :
    (m.insert a v).erase a = m.erase a := by
  induction m with
  | nil => simp [Memory.insert, Memory.erase]
  | cons c rest ih =>
    obtain ⟨k, w⟩ := c
    by_cases hl : a < k
    · simp [Memory.insert, Memory.erase, hl]
    · by_cases hk : k = a <;> simp [Memory.insert, Memory.erase, hl, hk, ih]

/-- The later of two writes to one cell is the one that counts. -/
@[simp] theorem write_write_same (m : Memory) (a : Nat) (v w : Byte) :
    (m.write a v).write a w = m.write a w := by
  have he : (m.write a v).erase a = m.erase a := by
    by_cases hv : v = 0#8 <;> simp [Memory.write, hv]
  rw [Memory.write, he, Memory.write]

/-! ### The canonical form -/

theorem wfFrom_mono {m : Memory} {lo hi : Nat} (hle : lo ≤ hi) (h : m.wfFrom hi = true) :
    m.wfFrom lo = true := by
  cases m with
  | nil => rfl
  | cons c rest =>
    obtain ⟨k, v⟩ := c
    simp only [Memory.wfFrom, Bool.and_eq_true, decide_eq_true_eq] at h ⊢
    exact ⟨⟨⟨hle.trans h.1.1.1, h.1.1.2⟩, h.1.2⟩, h.2⟩

theorem erase_keeps_wfFrom {m : Memory} {lo : Nat} (a : Nat) (h : m.wfFrom lo = true) :
    (m.erase a).wfFrom lo = true := by
  induction m generalizing lo with
  | nil => rfl
  | cons c rest ih =>
    obtain ⟨k, v⟩ := c
    simp only [Memory.wfFrom, Bool.and_eq_true, decide_eq_true_eq] at h
    by_cases hk : k = a
    · simpa [Memory.erase, hk] using wfFrom_mono (by omega) (ih h.2)
    · simpa [Memory.erase, hk, Memory.wfFrom] using ⟨⟨⟨h.1.1.1, h.1.1.2⟩, h.1.2⟩, ih h.2⟩

/-- Inserting a nonzero entry into a canonical list that holds none for its address. -/
theorem insert_erase_keeps_wfFrom {m : Memory} {lo a : Nat} {v : Byte} (hlo : lo ≤ a)
    (ha : a < 65536) (hv : v ≠ 0#8) (h : m.wfFrom lo = true) :
    ((m.erase a).insert a v).wfFrom lo = true := by
  induction m generalizing lo with
  | nil => simp [Memory.erase, Memory.insert, Memory.wfFrom, hlo, ha, hv]
  | cons c rest ih =>
    obtain ⟨k, w⟩ := c
    simp only [Memory.wfFrom, Bool.and_eq_true, decide_eq_true_eq] at h
    obtain ⟨⟨⟨hk1, hk2⟩, hw⟩, hr⟩ := h
    by_cases hk : k = a
    · simpa [Memory.erase, hk] using ih hlo (wfFrom_mono (by omega) hr)
    · by_cases hl : a < k
      · have hrest := erase_keeps_wfFrom a hr
        simp only [Memory.erase, hk, if_false, Memory.insert, hl, if_true, Memory.wfFrom,
          Bool.and_eq_true, decide_eq_true_eq]
        exact ⟨⟨⟨hlo, ha⟩, hv⟩, ⟨⟨by omega, hk2⟩, hw⟩, hrest⟩
      · have hrest := ih (by omega) hr
        simp only [Memory.erase, hk, if_false, Memory.insert, hl, Memory.wfFrom,
          Bool.and_eq_true, decide_eq_true_eq]
        exact ⟨⟨⟨hk1, hk2⟩, hw⟩, hrest⟩

/-- A write inside the address space keeps the canonical form. -/
theorem write_keeps_wf {m : Memory} {a : Nat} (v : Byte) (ha : a < 65536) (h : m.wf = true) :
    (m.write a v).wf = true := by
  by_cases hv : v = 0#8
  · simpa [Memory.write, Memory.wf, hv] using erase_keeps_wfFrom a h
  · simpa [Memory.write, Memory.wf, hv] using insert_erase_keeps_wfFrom (Nat.zero_le a) ha hv h

theorem nil_wf : Memory.wf [] = true := rfl

/-- Reset memory lists nothing, so it is in canonical form. -/
theorem reset_mem_wf : State.reset.mem.wf = true := nil_wf

end Sys2Proof.Machine
end

