-- ==== Sys2Proof/Laws/Ops.lean ====
section
/-! SUPPORT. What each memory-unit operation can do, once: while ready, while not ready, and that it
keeps the canonical form. -/

namespace Sys2Proof.Machine

@[simp] theorem setCell_cell_same (s : State) (a : Word) (v : Byte) :
    (s.setCell a v).cell a = v := read_write_same _ _ _

theorem setCell_cell_other (s : State) {a b : Word} (v : Byte) (h : b ≠ a) :
    (s.setCell a v).cell b = s.cell b :=
  read_write_other _ _ (fun e => h (BitVec.eq_of_toNat_eq e))

@[simp] theorem setCell_setCell_same (s : State) (a : Word) (v w : Byte) :
    (s.setCell a v).setCell a w = s.setCell a w := by simp [State.setCell]

theorem setCell_keeps_wf {s : State} (a : Word) (v : Byte) (h : s.mem.wf = true) :
    (s.setCell a v).mem.wf = true := write_keeps_wf v a.isLt h

/-- While ready a byte read returns the cell and changes nothing. -/
theorem readByte_ready {s : State} (a : Word) (h : s.ready = true) :
    s.readByte a = (s.cell a, s) := by simp [State.readByte, h]

/-- While ready a byte write writes the one cell. -/
theorem writeByte_ready {s : State} (a : Word) (v : Byte) (h : s.ready = true) :
    s.writeByte a v = s.setCell a v := by simp [State.writeByte, h]

/-- A byte read, whatever `ready` is, changes nothing but the model's own counter. -/
theorem readByte_cases (s : State) (a : Word) :
    s.readByte a = (s.cell a, s) ∨
    (s.ready = false ∧ Config.notReadyRead = .draw ∧
      s.readByte a = (Config.freeByte s.draws, { s with draws := s.draws + 1 })) := by
  cases hr : s.ready
  · cases hp : Config.notReadyRead
    · exact .inl (by simp [State.readByte, hr, hp])
    · exact .inr ⟨rfl, rfl, by simp [State.readByte, State.drawByte, hr, hp]⟩
  · exact .inl (readByte_ready a hr)

/-- A byte write, whatever `ready` is, writes the one cell or nothing. -/
theorem writeByte_cases (s : State) (a : Word) (v : Byte) :
    s.writeByte a v = s.setCell a v ∨
    (s.ready = false ∧ Config.notReadyWrite = .drop ∧ s.writeByte a v = s) := by
  cases hr : s.ready
  · cases hp : Config.notReadyWrite
    · exact .inl (by simp [State.writeByte, hr, hp])
    · exact .inr ⟨rfl, rfl, by simp [State.writeByte, hr, hp]⟩
  · exact .inl (writeByte_ready a v hr)

@[simp] theorem readByte_rf (s : State) (a : Word) : (s.readByte a).2.rf = s.rf := by
  rcases readByte_cases s a with h | ⟨-, -, h⟩ <;> rw [h]
@[simp] theorem readByte_mem (s : State) (a : Word) : (s.readByte a).2.mem = s.mem := by
  rcases readByte_cases s a with h | ⟨-, -, h⟩ <;> rw [h]
@[simp] theorem readByte_ready_unchanged (s : State) (a : Word) :
    (s.readByte a).2.ready = s.ready := by
  rcases readByte_cases s a with h | ⟨-, -, h⟩ <;> rw [h]
@[simp] theorem readByte_cell (s : State) (a b : Word) : (s.readByte a).2.cell b = s.cell b := by
  simp [State.cell]

@[simp] theorem writeByte_rf (s : State) (a : Word) (v : Byte) : (s.writeByte a v).rf = s.rf := by
  rcases writeByte_cases s a v with h | ⟨-, -, h⟩ <;> rw [h]; rfl
@[simp] theorem writeByte_ready_unchanged (s : State) (a : Word) (v : Byte) :
    (s.writeByte a v).ready = s.ready := by
  rcases writeByte_cases s a v with h | ⟨-, -, h⟩ <;> rw [h]; rfl
@[simp] theorem writeByte_draws (s : State) (a : Word) (v : Byte) :
    (s.writeByte a v).draws = s.draws := by
  rcases writeByte_cases s a v with h | ⟨-, -, h⟩ <;> rw [h]; rfl

theorem writeByte_cell_other (s : State) {a b : Word} (v : Byte) (h : b ≠ a) :
    (s.writeByte a v).cell b = s.cell b := by
  rcases writeByte_cases s a v with hw | ⟨-, -, hw⟩ <;> rw [hw]
  exact setCell_cell_other s v h

theorem writeByte_keeps_wf {s : State} (a : Word) (v : Byte) (h : s.mem.wf = true) :
    (s.writeByte a v).mem.wf = true := by
  rcases writeByte_cases s a v with hw | ⟨-, -, hw⟩ <;> rw [hw]
  · exact setCell_keeps_wf a v h
  · exact h

theorem writeWord_keeps_wf {s : State} (a v : Word) (h : s.mem.wf = true) :
    (s.writeWord a v).mem.wf = true := writeByte_keeps_wf _ _ (writeByte_keeps_wf _ _ h)

@[simp] theorem readWord_mem (s : State) (a : Word) : (s.readWord a).2.mem = s.mem := by
  simp [State.readWord]

/-- The fetch changes nothing but the model's own counter. -/
@[simp] theorem fetch_rf (s : State) : s.fetch.2.2.rf = s.rf := by simp [State.fetch]
@[simp] theorem fetch_mem (s : State) : s.fetch.2.2.mem = s.mem := by simp [State.fetch]
@[simp] theorem fetch_ready_unchanged (s : State) : s.fetch.2.2.ready = s.ready := by
  simp [State.fetch]

end Sys2Proof.Machine
end

