-- ==== Sys2Proof/Laws/Execute.lean ====
section
/-! SUPPORT. The spec lemmas of construction, of the execute stage and of the step: what each can do,
said once, for proofs to cite instead of unfolding. -/

namespace Sys2Proof.Machine

/-- What a well-formed instruction's construction gives. -/
theorem construct_resetBit_register {n : Nat} {id : RegId} {r : Reg8} (hn : n < 8)
    (hr : reg8OfId id = some r) :
    construct ⟨.resetBit n, .registerDirect id⟩ = .ok ⟨.resetBit ⟨n, hn⟩, .registerDirect r⟩ := by
  simp [construct, constructTransform, constructMode, hn, hr]

theorem construct_setBit_register {n : Nat} {id : RegId} {r : Reg8} (hn : n < 8)
    (hr : reg8OfId id = some r) :
    construct ⟨.setBit n, .registerDirect id⟩ = .ok ⟨.setBit ⟨n, hn⟩, .registerDirect r⟩ := by
  simp [construct, constructTransform, constructMode, hn, hr]

theorem construct_resetBit_pair {n : Nat} {id : RegId} {p : Pair} (hn : n < 8)
    (hp : pairOfId id = some p) :
    construct ⟨.resetBit n, .memoryIndirect id⟩ = .ok ⟨.resetBit ⟨n, hn⟩, .memoryIndirect p⟩ := by
  simp [construct, constructTransform, constructMode, hn, hp]

theorem construct_setBit_pair {n : Nat} {id : RegId} {p : Pair} (hn : n < 8)
    (hp : pairOfId id = some p) :
    construct ⟨.setBit n, .memoryIndirect id⟩ = .ok ⟨.setBit ⟨n, hn⟩, .memoryIndirect p⟩ := by
  simp [construct, constructTransform, constructMode, hn, hp]

/-- A descriptor with a register-direct mode constructs, if at all, to the register its identity
names. -/
theorem construct_register_cases {xf : RawTransform} {id : RegId} {d : Descriptor}
    (h : construct ⟨xf, .registerDirect id⟩ = .ok d) :
    ∃ r, reg8OfId id = some r ∧ d.mode = .registerDirect r := by
  unfold construct at h
  split at h
  · cases h
  · cases hr : reg8OfId id with
    | none => simp [constructMode, hr] at h
    | some r =>
      simp only [constructMode, hr] at h
      cases h
      exact ⟨r, rfl, rfl⟩

/-- The same for a memory-indirect mode and its pair. -/
theorem construct_pair_cases {xf : RawTransform} {id : RegId} {d : Descriptor}
    (h : construct ⟨xf, .memoryIndirect id⟩ = .ok d) :
    ∃ p, pairOfId id = some p ∧ d.mode = .memoryIndirect p := by
  unfold construct at h
  split at h
  · cases h
  · cases hp : pairOfId id with
    | none => simp [constructMode, hp] at h
    | some p =>
      simp only [constructMode, hp] at h
      cases h
      exact ⟨p, rfl, rfl⟩

/-- Every arm of `exec` constructs its instruction's descriptor and executes it. -/
theorem exec_eq_constructAndExecute (i : Instr) (s : State) :
    exec i s = constructAndExecute i.descriptor s := by cases i <;> rfl

/-- If `exec` answers a next state, it executed the constructed descriptor. -/
theorem exec_next_cases {i : Instr} {s t : State} (h : exec i s = .next t) :
    ∃ d, construct i.descriptor = .ok d ∧ t = execute d s := by
  rw [exec_eq_constructAndExecute, constructAndExecute] at h
  cases hc : construct i.descriptor with
  | ok d =>
    rw [hc] at h
    exact ⟨d, rfl, (Host.Outcome.next.inj h).symm⟩
  | error r => rw [hc] at h; cases h

/-- Register-direct execution, in one equation (R104, R105, R107, R109). -/
theorem execute_registerDirect (xf : Transform) (r : Reg8) (s : State) :
    execute ⟨xf, .registerDirect r⟩ s =
      State.charge (cost xf (.registerDirect r))
        { s with rf := s.rf.set8 r (transform xf (s.rf.get8 r)) } := rfl

/-- Memory-indirect execution, in one equation: read, transform, write to the same address, charge
(R104, R106, R107, R109). -/
theorem execute_memoryIndirect (xf : Transform) (p : Pair) (s : State) :
    execute ⟨xf, .memoryIndirect p⟩ s =
      State.charge (cost xf (.memoryIndirect p))
        ((s.readByte (s.effectiveAddress p)).2.writeByte (s.effectiveAddress p)
          (transform xf (s.readByte (s.effectiveAddress p)).1)) := by
  simp [execute, load, store, State.effectiveAddress]

/-- If a step answers a next state: both bytes were fetched, they decode, and the decoded instruction
ran with `pc` advanced (R100). -/
theorem step_next_cases {s t : State} (h : step s = .next t) :
    ∃ i, decode s.fetch.1 s.fetch.2.1 = .ok i ∧ exec i s.fetch.2.2.advancePc = .next t := by
  unfold step at h
  cases hd : decode s.fetch.1 s.fetch.2.1 with
  | ok i => exact ⟨i, rfl, by simpa [hd] using h⟩
  | error e => simp [hd, reject] at h

end Sys2Proof.Machine
end

