-- ==== Sys2Proof/Laws/PerInstr.lean ====
section
/-! SUPPORT. Statements made per instruction. Family RowMatch: the encoded bytes of a well-formed
instruction select, in spec/opcode_table.json, the row that carries its mnemonic
(spec/30_encoding.md R96). -/

namespace Sys2Proof.Laws.RowMatch

/-- The encoding of `i` lies in its own row of the opcode table. -/
def Statement (i : Instr) : Prop :=
  i.wellFormed = true →
    ∃ row ∈ opcodeTable, row.mnemonic = i.mnemonic ∧
      row.selects (encode i).1 (encode i).2 = true

/-- The mask of every row ignores the bit index and keeps the prefix, `tt` and `rrr`. -/
theorem mask_drops_bit_index (tt : BitVec 2) (bbb rrr : BitVec 3) :
    (cbByte ++ (tt ++ bbb ++ rrr)) &&& 0xFFC7#16 = cbByte ++ (tt ++ 0#3 ++ rrr) := by
  revert tt bbb rrr
  decide

theorem row_selects_of_code (name : String) (tt : BitVec 2) (bbb rrr : BitVec 3) {w : Word}
    (h : cbByte ++ (tt ++ 0#3 ++ rrr) = w) :
    (OpcodeRow.mk name w 0xFFC7#16).selects cbByte (tt ++ bbb ++ rrr) = true :=
  decide_eq_true ((mask_drops_bit_index tt bbb rrr).trans h)

theorem resB (n : Nat) : Statement (.resB n) := fun _ =>
  ⟨⟨"RES_n_B", 0xCB80#16, 0xFFC7#16⟩, by decide, rfl, row_selects_of_code _ 0b10#2 _ 0#3 rfl⟩

theorem resC (n : Nat) : Statement (.resC n) := fun _ =>
  ⟨⟨"RES_n_C", 0xCB81#16, 0xFFC7#16⟩, by decide, rfl, row_selects_of_code _ 0b10#2 _ 1#3 rfl⟩

theorem resD (n : Nat) : Statement (.resD n) := fun _ =>
  ⟨⟨"RES_n_D", 0xCB82#16, 0xFFC7#16⟩, by decide, rfl, row_selects_of_code _ 0b10#2 _ 2#3 rfl⟩

theorem resE (n : Nat) : Statement (.resE n) := fun _ =>
  ⟨⟨"RES_n_E", 0xCB83#16, 0xFFC7#16⟩, by decide, rfl, row_selects_of_code _ 0b10#2 _ 3#3 rfl⟩

theorem resH (n : Nat) : Statement (.resH n) := fun _ =>
  ⟨⟨"RES_n_H", 0xCB84#16, 0xFFC7#16⟩, by decide, rfl, row_selects_of_code _ 0b10#2 _ 4#3 rfl⟩

theorem resL (n : Nat) : Statement (.resL n) := fun _ =>
  ⟨⟨"RES_n_L", 0xCB85#16, 0xFFC7#16⟩, by decide, rfl, row_selects_of_code _ 0b10#2 _ 5#3 rfl⟩

theorem resHL (n : Nat) : Statement (.resHL n) := fun _ =>
  ⟨⟨"RES_n__HL", 0xCB86#16, 0xFFC7#16⟩, by decide, rfl, row_selects_of_code _ 0b10#2 _ 6#3 rfl⟩

theorem resA (n : Nat) : Statement (.resA n) := fun _ =>
  ⟨⟨"RES_n_A", 0xCB87#16, 0xFFC7#16⟩, by decide, rfl, row_selects_of_code _ 0b10#2 _ 7#3 rfl⟩

theorem setB (n : Nat) : Statement (.setB n) := fun _ =>
  ⟨⟨"SET_n_B", 0xCBC0#16, 0xFFC7#16⟩, by decide, rfl, row_selects_of_code _ 0b11#2 _ 0#3 rfl⟩

theorem setC (n : Nat) : Statement (.setC n) := fun _ =>
  ⟨⟨"SET_n_C", 0xCBC1#16, 0xFFC7#16⟩, by decide, rfl, row_selects_of_code _ 0b11#2 _ 1#3 rfl⟩

theorem setD (n : Nat) : Statement (.setD n) := fun _ =>
  ⟨⟨"SET_n_D", 0xCBC2#16, 0xFFC7#16⟩, by decide, rfl, row_selects_of_code _ 0b11#2 _ 2#3 rfl⟩

theorem setE (n : Nat) : Statement (.setE n) := fun _ =>
  ⟨⟨"SET_n_E", 0xCBC3#16, 0xFFC7#16⟩, by decide, rfl, row_selects_of_code _ 0b11#2 _ 3#3 rfl⟩

theorem setH (n : Nat) : Statement (.setH n) := fun _ =>
  ⟨⟨"SET_n_H", 0xCBC4#16, 0xFFC7#16⟩, by decide, rfl, row_selects_of_code _ 0b11#2 _ 4#3 rfl⟩

theorem setL (n : Nat) : Statement (.setL n) := fun _ =>
  ⟨⟨"SET_n_L", 0xCBC5#16, 0xFFC7#16⟩, by decide, rfl, row_selects_of_code _ 0b11#2 _ 5#3 rfl⟩

theorem setHL (n : Nat) : Statement (.setHL n) := fun _ =>
  ⟨⟨"SET_n__HL", 0xCBC6#16, 0xFFC7#16⟩, by decide, rfl, row_selects_of_code _ 0b11#2 _ 6#3 rfl⟩

theorem setA (n : Nat) : Statement (.setA n) := fun _ =>
  ⟨⟨"SET_n_A", 0xCBC7#16, 0xFFC7#16⟩, by decide, rfl, row_selects_of_code _ 0b11#2 _ 7#3 rfl⟩

end Sys2Proof.Laws.RowMatch
end

