-- ==== Sys2Proof/Laws/Run.lean ====
section
/-! SUPPORT. Runs of several steps, opened one step at a time, and how the host's view of an outcome
settles. -/

namespace Sys2Proof.Machine

@[simp] theorem settleOutcome_next (s t : State) (ok : HostResult) :
    settleOutcome s ok (.next t) = (t, ok) := rfl
@[simp] theorem settleOutcome_fault (s : State) (r : Fault) (ok : HostResult) :
    settleOutcome s ok (.fault r) = (s, .rejected r) := rfl
@[simp] theorem settleOutcome_refused (s : State) (r : Refusal) (ok : HostResult) :
    settleOutcome s ok (.refused r) = (s, .refused r) := rfl

theorem run_zero (s : State) : Host.Core.run Sys2Proof.core 0 s = .next s := rfl

/-- A run whose first step is accepted goes on from the next state. -/
theorem run_succ_of_next {k : Nat} {s u : State} (h : step s = .next u) :
    Host.Core.run Sys2Proof.core (k + 1) s = Host.Core.run Sys2Proof.core k u := by
  have h' : Sys2Proof.core.step s = .next u := h
  simp [Host.Core.run, h']

/-- A run stops at the first rejection. -/
theorem run_succ_of_fault {k : Nat} {s : State} {r : Fault} (h : step s = .fault r) :
    Host.Core.run Sys2Proof.core (k + 1) s = .fault r := by
  have h' : Sys2Proof.core.step s = .fault r := h
  simp [Host.Core.run, h']

theorem run_succ_of_refused {k : Nat} {s : State} {r : Refusal} (h : step s = .refused r) :
    Host.Core.run Sys2Proof.core (k + 1) s = .refused r := by
  have h' : Sys2Proof.core.step s = .refused r := h
  simp [Host.Core.run, h']

/-- If a run of one more step answers a next state, its first step did too. -/
theorem run_next_cases {k : Nat} {s t : State}
    (h : Host.Core.run Sys2Proof.core (k + 1) s = .next t) :
    ∃ u, step s = .next u ∧ Host.Core.run Sys2Proof.core k u = .next t := by
  cases hs : step s with
  | next u => exact ⟨u, rfl, by rwa [run_succ_of_next hs] at h⟩
  | fault r => rw [run_succ_of_fault hs] at h; cases h
  | refused r => rw [run_succ_of_refused hs] at h; cases h

theorem safeFor_succ_of_next {k : Nat} {s u : State} (h : step s = .next u) :
    SafeFor (k + 1) s = SafeFor k u := by simp [SafeFor, h]

end Sys2Proof.Machine
end

