-- ==== Sys2Proof/Tests/Slice0.lean ====
section
/-! SUPPORT. Tests: each ill-formed term is refused, every constructor decodes from a word written out
bit by bit, single steps with the results of spec/95_test_vectors.md, and for every statement with
hypotheses a concrete case that meets them. -/

namespace Sys2Proof.Tests
open Sys2Proof.Machine

/-- A ready state with these registers and cells. -/
def ready (rf : RegFile) (mem : Memory) : State := { rf := rf, mem := mem, ready := true, draws := 0 }

/-- A ready state about to run one instruction at 0x1000, with more cells above it. -/
def at1000 (b1 : Byte) (rf : RegFile) (rest : Memory) : State :=
  ready { rf with pc := 0x1000 } ((0x1000, 0xCB#8) :: (0x1001, b1) :: rest)

/-- Registers for tests, all different, so that a swapped operand shows. -/
def regs : RegFile :=
  { a := 0x11, b := 0x22, c := 0x33, d := 0x44, e := 0x55, h := 0xC0, l := 0x00, f := 0xF0,
    sp := 0xFFFE, pc := 0x0100, liet := 99 }

/-- A state that is not ready. -/
def notReady : State := { ready regs [(0xC000, 0xFF#8)] with ready := false }

/-! ### Each check of WellFormed refuses -/

theorem test_refuses_bit_index_reset : RawTransform.wellFormed (.resetBit 8) = false := by decide
theorem test_refuses_bit_index_set : RawTransform.wellFormed (.setBit 8) = false := by decide
theorem test_refuses_instr_bit_index_res : (Instr.resHL 8).wellFormed = false := by decide
theorem test_refuses_instr_bit_index_set : (Instr.setA 8).wellFormed = false := by decide
theorem test_refuses_register_SP : RawMode.wellFormed (.registerDirect .SP) = false := by decide
theorem test_refuses_register_BC : RawMode.wellFormed (.registerDirect .BC) = false := by decide
theorem test_refuses_register_other : RawMode.wellFormed (.registerDirect (.other "X")) = false := by decide
theorem test_refuses_base_SP : RawMode.wellFormed (.memoryIndirect .SP) = false := by decide
theorem test_refuses_base_PC : RawMode.wellFormed (.memoryIndirect .PC) = false := by decide
theorem test_refuses_base_A : RawMode.wellFormed (.memoryIndirect .A) = false := by decide
theorem test_refuses_base_other : RawMode.wellFormed (.memoryIndirect (.other "AF")) = false := by decide
theorem test_refuses_descriptor_transform : RawDescriptor.wellFormed ⟨.setBit 8, .registerDirect .A⟩ = false := by decide
theorem test_refuses_descriptor_mode : RawDescriptor.wellFormed ⟨.setBit 0, .memoryIndirect .SP⟩ = false := by decide
theorem test_accepts_boundary :
    RawDescriptor.wellFormed ⟨.resetBit 7, .registerDirect .F⟩ = true ∧
    RawDescriptor.wellFormed ⟨.setBit 0, .memoryIndirect .DE⟩ = true := by decide

/-! ### Decoding, from words written out as 0xCB then tt bbb rrr (30_encoding.md R83 to R87) -/

theorem test_decode_resB : decode 0b11001011#8 0b10_010_000#8 = .ok (.resB 2) := by decide
theorem test_decode_resC : decode 0b11001011#8 0b10_101_001#8 = .ok (.resC 5) := by decide
theorem test_decode_resD : decode 0b11001011#8 0b10_000_010#8 = .ok (.resD 0) := by decide
theorem test_decode_resE : decode 0b11001011#8 0b10_011_011#8 = .ok (.resE 3) := by decide
theorem test_decode_resH : decode 0b11001011#8 0b10_110_100#8 = .ok (.resH 6) := by decide
theorem test_decode_resL : decode 0b11001011#8 0b10_001_101#8 = .ok (.resL 1) := by decide
theorem test_decode_resHL : decode 0b11001011#8 0b10_100_110#8 = .ok (.resHL 4) := by decide
theorem test_decode_resA : decode 0b11001011#8 0b10_111_111#8 = .ok (.resA 7) := by decide
theorem test_decode_setB : decode 0b11001011#8 0b11_010_000#8 = .ok (.setB 2) := by decide
theorem test_decode_setC : decode 0b11001011#8 0b11_101_001#8 = .ok (.setC 5) := by decide
theorem test_decode_setD : decode 0b11001011#8 0b11_000_010#8 = .ok (.setD 0) := by decide
theorem test_decode_setE : decode 0b11001011#8 0b11_011_011#8 = .ok (.setE 3) := by decide
theorem test_decode_setH : decode 0b11001011#8 0b11_110_100#8 = .ok (.setH 6) := by decide
theorem test_decode_setL : decode 0b11001011#8 0b11_001_101#8 = .ok (.setL 1) := by decide
theorem test_decode_setHL : decode 0b11001011#8 0b11_100_110#8 = .ok (.setHL 4) := by decide
theorem test_decode_setA : decode 0b11001011#8 0b11_111_111#8 = .ok (.setA 7) := by decide

theorem test_decode_rejects_tt00 : decode 0b11001011#8 0b00_111_111#8 = .error (.bytePair 0xCB#8 0x3F#8) := by
  decide
theorem test_decode_rejects_tt01 : decode 0b11001011#8 0b01_000_110#8 = .error (.bytePair 0xCB#8 0x46#8) := by
  decide
theorem test_decode_rejects_first_byte : decode 0x00#8 0xCB#8 = .error (.firstByte 0x00#8) := by decide
theorem test_decode_table_word : decodeTableWord 16 0xCB9E = some (.resHL 3) ∧
    decodeTableWord 16 0x9ECB = none := by decide

/-! ### Single steps (95_test_vectors.md 2.4, 2.5; the ids are its own; the others are its tables 2.1,
2.2 and 2.3 put together) -/

theorem test_V1_res_0_A :
    let s := at1000 0x87#8 { regs with a := 0x03 }
      []
    step s = .next { s with
      rf := { s.rf with pc := 0x1002, a := 0x02, liet := 2 } } := rfl
theorem test_V2_res_0_A :
    let s := at1000 0x87#8 { regs with a := 0x01 }
      []
    step s = .next { s with
      rf := { s.rf with pc := 0x1002, a := 0x00, liet := 2 } } := rfl
theorem test_V3_res_7_B :
    let s := at1000 0xB8#8 { regs with b := 0xFF, c := 0xFF }
      []
    step s = .next { s with
      rf := { s.rf with pc := 0x1002, b := 0x7F, liet := 2 } } := rfl
theorem test_V4_res_3_C :
    let s := at1000 0x99#8 { regs with c := 0x00 }
      []
    step s = .next { s with
      rf := { s.rf with pc := 0x1002, liet := 2 } } := rfl
theorem test_res_5_D :
    let s := at1000 0xAA#8 { regs with d := 0xA5 }
      []
    step s = .next { s with
      rf := { s.rf with pc := 0x1002, d := 0x85, liet := 2 } } := rfl
theorem test_res_6_E :
    let s := at1000 0xB3#8 { regs with e := 0x5A }
      []
    step s = .next { s with
      rf := { s.rf with pc := 0x1002, e := 0x1A, liet := 2 } } := rfl
theorem test_V5_res_4_H :
    let s := at1000 0xA4#8 { regs with h := 0xD0, l := 0x34 }
      []
    step s = .next { s with
      rf := { s.rf with pc := 0x1002, h := 0xC0, liet := 2 } } := rfl
theorem test_res_1_L :
    let s := at1000 0x8D#8 { regs with l := 0x5A }
      []
    step s = .next { s with
      rf := { s.rf with pc := 0x1002, l := 0x58, liet := 2 } } := rfl
theorem test_set_2_B :
    let s := at1000 0xD0#8 { regs with b := 0x5A }
      []
    step s = .next { s with
      rf := { s.rf with pc := 0x1002, b := 0x5E, liet := Config.cycSetReg } } := rfl
theorem test_set_4_C :
    let s := at1000 0xE1#8 { regs with c := 0xA5 }
      []
    step s = .next { s with
      rf := { s.rf with pc := 0x1002, c := 0xB5, liet := Config.cycSetReg } } := rfl
theorem test_V7_set_7_D :
    let s := at1000 0xFA#8 { regs with d := 0x00, e := 0x12 }
      []
    step s = .next { s with
      rf := { s.rf with pc := 0x1002, d := 0x80, liet := Config.cycSetReg } } := rfl
theorem test_V9_set_1_E :
    let s := at1000 0xCB#8 { regs with e := 0x00 }
      []
    step s = .next { s with
      rf := { s.rf with pc := 0x1002, e := 0x02, liet := Config.cycSetReg } } := rfl
theorem test_set_6_H :
    let s := at1000 0xF4#8 { regs with h := 0x01 }
      []
    step s = .next { s with
      rf := { s.rf with pc := 0x1002, h := 0x41, liet := Config.cycSetReg } } := rfl
theorem test_V6_set_0_L :
    let s := at1000 0xC5#8 { regs with h := 0xC0, l := 0xFE }
      []
    step s = .next { s with
      rf := { s.rf with pc := 0x1002, l := 0xFF, liet := Config.cycSetReg } } := rfl
theorem test_V8_set_3_A :
    let s := at1000 0xDF#8 { regs with a := 0xFF }
      []
    step s = .next { s with
      rf := { s.rf with pc := 0x1002, liet := Config.cycSetReg } } := rfl
theorem test_V20_res_3_HL :
    let s := at1000 0x9E#8 { regs with h := 0xC0, l := 0x00 }
      [(0xC000, 0xFF#8)]
    step s = .next { s with
      mem := [(0x1000, 0xCB#8), (0x1001, 0x9E#8), (0xC000, 0xF7#8)]
      rf := { s.rf with pc := 0x1002, liet := Config.cycResMem } } := rfl
theorem test_V22_res_7_HL :
    let s := at1000 0xBE#8 { regs with h := 0xFF, l := 0xFF }
      [(0xFFFF, 0x80#8)]
    step s = .next { s with
      mem := [(0x1000, 0xCB#8), (0x1001, 0xBE#8)]
      rf := { s.rf with pc := 0x1002, liet := Config.cycResMem } } := rfl
theorem test_V25_set_7_HL :
    let s := at1000 0xFE#8 { regs with h := 0x12, l := 0x34 }
      [(0x1233, 0xAA#8), (0x1234, 0x7F#8), (0x1235, 0x55#8)]
    step s = .next { s with
      mem := [(0x1000, 0xCB#8), (0x1001, 0xFE#8), (0x1233, 0xAA#8), (0x1234, 0xFF#8), (0x1235, 0x55#8)]
      rf := { s.rf with pc := 0x1002, liet := Config.cycSetMem } } := rfl
theorem test_V26_set_0_HL_own_byte :
    let s := at1000 0xC6#8 { regs with h := 0x10, l := 0x01 }
      []
    step s = .next { s with
      mem := [(0x1000, 0xCB#8), (0x1001, 0xC7#8)]
      rf := { s.rf with pc := 0x1002, liet := Config.cycSetMem } } := rfl

/-- Program 4: the fetch wraps at the top of memory. -/
theorem test_fetch_wraps :
    let s := ready { regs with pc := 0xFFFF, a := 0x00 } [(0x0000, 0xC7#8), (0xFFFF, 0xCB#8)]
    step s = .next { s with rf := { s.rf with pc := 0x0001, a := 0x01, liet := Config.cycSetReg } } := rfl

/-- Program 5: zeroed memory is rejected on its first byte. -/
theorem test_rejects_zeroed_memory :
    step (ready { regs with pc := 0x0402 } []) =
      .fault (.unknownOpcode 0x0402#16 (.firstByte 0x00#8)) := rfl

/-- Program 5, second case: `CB 47`. -/
theorem test_rejects_tt01 :
    step (ready { regs with pc := 0x0500 } [(0x0500, 0xCB#8), (0x0501, 0x47#8)]) =
      .fault (.unknownOpcode 0x0500#16 (.bytePair 0xCB#8 0x47#8)) := rfl

/-! ### The descriptor level and the host's operations (95_test_vectors.md 2.4 to 2.7) -/

theorem test_V10_descriptor_res_7_F :
    hostOp (.execute ⟨.resetBit 7, .registerDirect .F⟩) (ready regs []) =
      (ready { regs with f := 0x70, liet := 2 } [], .done) := rfl
theorem test_V12_bit_index_8 :
    hostOp (.execute ⟨.resetBit 8, .registerDirect .A⟩) (ready regs []) =
      (ready regs [], .rejected (.bitIndexOutOfRange 8)) := rfl
theorem test_V13_base_SP :
    hostOp (.execute ⟨.setBit 0, .memoryIndirect .SP⟩) (ready regs []) =
      (ready regs [], .rejected (.unknownRegister .SP)) := rfl
theorem test_descriptor_res_2_BC :
    hostOp (.execute ⟨.resetBit 2, .memoryIndirect .BC⟩)
        (ready { regs with b := 0x20, c := 0x10 } [(0x2010, 0x0F#8)]) =
      (ready { regs with b := 0x20, c := 0x10, liet := Config.cycResMem } [(0x2010, 0x0B#8)], .done) :=
  rfl
theorem test_descriptor_set_6_DE :
    hostOp (.execute ⟨.setBit 6, .memoryIndirect .DE⟩)
        (ready { regs with d := 0x00, e := 0x05 } []) =
      (ready { regs with d := 0x00, e := 0x05, liet := Config.cycSetMem } [(0x0005, 0x40#8)], .done) :=
  rfl
theorem test_M3_word_is_unsigned :
    (hostOp (.readWord 0x0010) (ready regs [(0x0010, 0x80#8), (0x0011, 0xFF#8)])).2 = .word 0xFF80#16 := by
  decide
theorem test_M4_word_is_little_endian :
    (hostOp (.writeWord 0x2000 0xBEEF) (ready regs [])).1.mem = [(0x2000, 0xEF#8), (0x2001, 0xBE#8)] := by
  decide
theorem test_M6_word_wraps :
    (hostOp (.writeWord 0xFFFF 0xA1B2) (ready regs [])).1.mem = [(0x0000, 0xA1#8), (0xFFFF, 0xB2#8)] := by
  decide
theorem test_M8_reset_zeroes :
    (hostSession [.writeByte 0x4000 0x77, .reset, .setSystemReady true, .readByte 0x4000]
      (ready regs [])).2 = [.done, .done, .done, .byte 0x00#8] := rfl
theorem test_S4_word_at_11 :
    (hostOp (.writeWord 0x000B 0xFFFE) (ready regs [])).1.mem = [(11, 0xFE#8), (12, 0xFF#8)] := by decide
theorem test_G1_pair_of_halves :
    (hostSession [.set8 .B 0x12, .set8 .C 0x34, .get16 .BC] (ready regs [])).2 =
      [.done, .done, .word 0x1234#16] := by decide
theorem test_G2_halves_of_pair :
    (hostSession [.set16 .HL 0xC0DE, .get8 .H, .get8 .L] (ready regs [])).2 =
      [.done, .byte 0xC0#8, .byte 0xDE#8] := by decide
theorem test_G7_unknown_identity :
    hostOp (.get8 (.other "X")) (ready regs []) =
      (ready regs [], .rejected (.unknownRegister (.other "X"))) := by decide
theorem test_G8_liet_reads_twice :
    (hostSession [.step, .getLastInstructionExecutionTime, .getLastInstructionExecutionTime]
      (at1000 0x87#8 regs [])).2 = [.stepped, .cycles 2, .cycles 2] := by decide

/-! ### Witnesses: for each statement with hypotheses, a case that meets them -/

/-- A state of the own-byte program: `RES 7,(HL)` at 0x0600 with HL = 0x0601 (program 6). -/
def ownByte : State :=
  ready { regs with pc := 0x0600, h := 0x06, l := 0x01 } [(0x0600, 0xCB#8), (0x0601, 0xBE#8)]

theorem test_witness_DecodeOfEncodeIsTheInstruction :
    (Instr.resB 0).wellFormed = true ∧ (Instr.setHL 7).wellFormed = true := by decide

theorem test_witness_EncodeOfDecodeIsTheBytes : decode 0xCB#8 0xFF#8 = .ok (.setA 7) := by decide

theorem test_witness_DecodeReadsItsThreeFields :
    ((0xCA#8 : Byte) ≠ 0xCB#8 ∧ (0xCC#8 : Byte) ≠ 0xCB#8) ∧
    (0x00#8 : Byte).toNat < 0x80 ∧ (0x7F#8 : Byte).toNat < 0x80 ∧
    (0x80#8 : Byte).toNat = 0x80 + 8 * 0 + 0 ∧ (0xBF#8 : Byte).toNat = 0x80 + 8 * 7 + 7 ∧
    (0xC0#8 : Byte).toNat = 0xC0 + 8 * 0 + 0 ∧ (0xFF#8 : Byte).toNat = 0xC0 + 8 * 7 + 7 ∧
    decode 0xCB#8 0xBF#8 = .ok (.resA 7) := by decide

theorem test_witness_OpcodeTableRowsAgreeWithDecode :
    decode 0xCB#8 0xBE#8 = .ok (.resHL 7) ∧
    (⟨"RES_n__HL", 0xCB86#16, 0xFFC7#16⟩ : OpcodeRow) ∈ opcodeTable ∧
    OpcodeRow.selects ⟨"RES_n__HL", 0xCB86#16, 0xFFC7#16⟩ 0xCB#8 0xBE#8 = true := by decide

theorem test_witness_StepRunsTheDecodedInstruction_accepts :
    (at1000 0x87#8 regs []).ready = true ∧
    (at1000 0x87#8 regs []).fetch = (0xCB#8, 0x87#8, at1000 0x87#8 regs []) ∧
    decode 0xCB#8 0x87#8 = .ok (.resA 0) := by decide
theorem test_witness_StepRunsTheDecodedInstruction_rejects :
    (at1000 0x7F#8 regs []).fetch = (0xCB#8, 0x7F#8, at1000 0x7F#8 regs []) ∧
    decode 0xCB#8 0x7F#8 = .error (.bytePair 0xCB#8 0x7F#8) := by decide

theorem test_witness_FetchWrapsAtTheTopOfMemory :
    let s := ready { regs with pc := 0xFFFF } [(0x0000, 0xC7#8), (0xFFFF, 0xCB#8)]
    s.ready = true ∧ s.rf.pc = 0xFFFF#16 ∧ ∃ t, step s = .next t := ⟨rfl, rfl, _, rfl⟩

theorem test_witness_StepCompletesOnEveryEncoding :
    (at1000 0x80#8 regs []).fetch.1 = 0xCB#8 ∧ 0x80 ≤ (at1000 0x80#8 regs []).fetch.2.1.toNat ∧
    (at1000 0xFF#8 regs []).fetch.1 = 0xCB#8 ∧ 0x80 ≤ (at1000 0xFF#8 regs []).fetch.2.1.toNat := by decide

theorem test_witness_StepRejectsEveryOtherBytePair :
    ((ready regs [(0x0100, 0xCC#8)]).fetch.1 = 0xCC#8 ∧ (0xCC#8 : Byte) ≠ 0xCB#8) ∧
    (at1000 0x7F#8 regs []).fetch.1 = 0xCB#8 ∧ (at1000 0x7F#8 regs []).fetch.2.1 = 0x7F#8 ∧
    (0x7F#8 : Byte).toNat < 0x80 := by decide

theorem test_witness_AcceptedStepAdvancesPcByTwo :
    (∃ t, step (at1000 0xB8#8 regs []) = .next t) ∧
    ∃ t, exec (.resB 7) (ready regs []) = .next t := ⟨⟨_, rfl⟩, _, rfl⟩

theorem test_witness_AcceptedStepWritesOnePlace :
    (∃ t, step (at1000 0xB8#8 regs []) = .next t) ∧
    ∃ t, step (at1000 0x9E#8 regs [(0xC000, 0xFF#8)]) = .next t := ⟨⟨_, rfl⟩, _, rfl⟩

/-- Program 1's first two instructions. -/
theorem test_witness_RunsAdvanceSequentially :
    let s := ready regs [(0x0100, 0xCB#8), (0x0101, 0xC7#8), (0x0102, 0xCB#8), (0x0103, 0xFF#8)]
    (∃ t, Host.Core.run Sys2Proof.core 2 s = .next t) ∧ SafeFor 2 s = true ∧
    SafeFor 3 s = false := ⟨⟨_, rfl⟩, rfl, rfl⟩

theorem test_witness_ResRegisterDirectResult :
    (0 < 8 ∧ 7 < 8) ∧ 8 ≤ 8 ∧ RegId.isReg8 .SP = false ∧ RegId.isReg8 (.other "X") = false ∧
    decode 0xCB#8 0x80#8 = .ok (.resB 0) := by decide

theorem test_witness_ResMemoryIndirectResult :
    (0 < 8 ∧ 7 < 8) ∧ (ready regs []).ready = true ∧ 8 ≤ 8 ∧ RegId.isPair .SP = false ∧
    RegId.isPair .A = false ∧ decode 0xCB#8 0xBE#8 = .ok (.resHL 7) := by decide

theorem test_witness_SetRegisterDirectResult :
    (0 < 8 ∧ 7 < 8) ∧ 8 ≤ 8 ∧ RegId.isReg8 .BC = false ∧ decode 0xCB#8 0xFF#8 = .ok (.setA 7) := by decide

theorem test_witness_SetMemoryIndirectResult :
    (0 < 8 ∧ 7 < 8) ∧ (ready regs []).ready = true ∧ 8 ≤ 8 ∧ RegId.isPair .PC = false ∧
    decode 0xCB#8 0xC6#8 = .ok (.setHL 0) := by decide

theorem test_witness_MemoryFormsRunWhileNotReady :
    (0 < 8 ∧ 7 < 8) ∧ notReady.ready = false ∧ pairOfId .BC = some .BC ∧ pairOfId .DE = some .DE ∧
    (0xC000#16 : Word) = notReady.rf.get8 (pairHi .HL) ++ notReady.rf.get8 (pairLo .HL) := by decide

theorem test_witness_EveryWellFormedInstructionCompletes :
    (Instr.setA 7).wellFormed = true ∧
    construct ⟨.resetBit 7, .memoryIndirect .DE⟩ = .ok ⟨.resetBit 7, .memoryIndirect .DE⟩ :=
  ⟨rfl, rfl⟩

theorem test_witness_BitIndexOutOfRangeIsRejected :
    8 ≤ (Instr.resB 8).bitIndex ∧ 8 ≤ (Instr.setHL 255).bitIndex := by decide

theorem test_witness_RepeatedExecutionChangesNothing : (ready regs []).ready = true := by decide

theorem test_witness_RegisterFormsFrame :
    (Instr.setA 7).descriptor.mode = .registerDirect .A ∧ reg8OfId .A = some .A ∧
    ∃ t, exec (.setA 7) (ready regs []) = .next t := ⟨rfl, rfl, _, rfl⟩

theorem test_witness_MemoryFormsFrame :
    (∃ t, exec (.resHL 0) (ready regs []) = .next t) ∧
    ∃ t, exec (.setHL 7) (ready regs []) = .next t := ⟨⟨_, rfl⟩, _, rfl⟩

theorem test_witness_ResetBitLaws :
    (0xFF#8 : Byte).getLsbD 7 = true ∧ (0x7F#8 : Byte).getLsbD 7 = false ∧
    ∀ n : Fin 8, n ∈ List.finRange 8 := by decide

theorem test_witness_SetBitLaws :
    (0x7F#8 : Byte).getLsbD 7 = false ∧ (0x80#8 : Byte).getLsbD 7 = true ∧ (0 : Fin 8) ≠ 7 ∧
    ∀ n : Fin 8, n ∈ List.finRange 8 := by decide

theorem test_witness_SetBitSetsOneBit : (0 : Nat) ≠ (7 : Fin 8).val ∧ 8 ≤ 8 := by decide
theorem test_witness_ResetBitClearsOneBit : (7 : Nat) ≠ (0 : Fin 8).val := by decide

theorem test_witness_CostTable :
    decode (at1000 0xBE#8 regs []).fetch.1 (at1000 0xBE#8 regs []).fetch.2.1 = .ok (.resHL 7) ∧
    ∃ t, step (at1000 0xBE#8 regs []) = .next t := ⟨rfl, _, rfl⟩

theorem test_witness_PairsAreViewsOfTheirHalves :
    (∃ t, exec (.resH 7) (ready regs []) = .next t) ∧ (∃ t, exec (.resL 0) (ready regs []) = .next t) ∧
    (∃ t, exec (.setH 0) (ready regs []) = .next t) ∧ ∃ t, exec (.setL 7) (ready regs []) = .next t :=
  ⟨⟨_, rfl⟩, ⟨_, rfl⟩, ⟨_, rfl⟩, _, rfl⟩

theorem test_witness_UnknownIdentityIsRejected :
    RegId.isReg8 .SP = false ∧ RegId.isReg8 (.other "X") = false ∧
    (RegId.isPair .A = false ∧ RegId.A ≠ .SP ∧ RegId.A ≠ .PC) ∧
    (RegId.isPair (.other "AF") = false ∧ RegId.other "AF" ≠ .SP ∧ RegId.other "AF" ≠ .PC) := by decide

theorem test_witness_EachPieceOfStateHasItsWriters_registers :
    let s := ready regs []
    (hostOp (.set16 .SP 0x0000) s).1.rf.sp ≠ s.rf.sp ∧
    (hostOp (.set8 .F 0x00) s).1.rf.f ≠ s.rf.f ∧
    (hostOp (.execute ⟨.resetBit 7, .registerDirect .F⟩) s).1.rf.f ≠ s.rf.f ∧
    (hostOp (.set16 .PC 0xFFFF) s).1.rf.pc ≠ s.rf.pc ∧
    (hostOp (.set8 .A 0xFF) s).1.rf.get8 .A ≠ s.rf.get8 .A ∧
    (hostOp (.set16 .BC 0xFFFF) s).1.rf.get8 .B ≠ s.rf.get8 .B ∧
    (hostOp (.execute ⟨.resetBit 0, .registerDirect .A⟩) s).1.rf.get8 .A ≠ s.rf.get8 .A ∧
    (hostOp (.execute ⟨.resetBit 0, .registerDirect .A⟩) s).1.rf.liet ≠ s.rf.liet := by decide
theorem test_witness_EachPieceOfStateHasItsWriters_step :
    let s := at1000 0x87#8 regs []
    (hostOp .step s).1.rf.pc ≠ s.rf.pc ∧ (hostOp .step s).1.rf.liet ≠ s.rf.liet ∧
    (hostOp .step s).1.rf.get8 .A ≠ s.rf.get8 .A := by decide
theorem test_witness_EachPieceOfStateHasItsWriters_memory :
    let s := at1000 0xBE#8 regs [(0xC000, 0xFF#8)]
    (hostOp .step s).1.mem ≠ s.mem ∧ (hostOp .reset s).1.mem ≠ s.mem ∧
    (hostOp (.execute ⟨.resetBit 0, .memoryIndirect .HL⟩) s).1.mem ≠ s.mem ∧
    (hostOp (.writeByte 0xFFFF 0x01) s).1.mem ≠ s.mem ∧
    (hostOp (.writeWord 0xFFFF 0x0100) s).1.mem ≠ s.mem ∧
    (hostOp (.setSystemReady false) s).1.ready ≠ s.ready := by decide

theorem test_witness_LoadAndStoreUseOnePlace :
    (ready regs [(0, 0x01#8), (0xFFFF, 0xFF#8)]).Inv ∧
    (ready regs [(0, 0x01#8), (0xFFFF, 0xFF#8)]).ready = true := ⟨rfl, rfl⟩

theorem test_witness_ByteReadsAndWrites :
    (ready regs []).ready = true ∧ (0x0000#16 : Word) ≠ 0xFFFF#16 := by decide

theorem test_witness_WordReadsAndWrites :
    (ready regs []).ready = true ∧ (0x0001#16 : Word) ≠ 0xFFFF#16 ∧
    (0x0001#16 : Word) ≠ 0xFFFF#16 + 1#16 := by decide

theorem test_witness_NotReadyAccessesFollowThePolicy : notReady.ready = false := by decide

theorem test_witness_SetSystemReadyWritesReadyOnly :
    ∃ t, exec (.setHL 0) (ready regs []) = .next t := ⟨_, rfl⟩

theorem test_witness_CanonicalMemoryIsExtensional :
    Memory.wf [(0, 0x01#8), (0xFFFF, 0xFF#8)] = true ∧ Memory.wf [] = true ∧
    ∀ a, Memory.read [(0, 0x01#8), (0xFFFF, 0xFF#8)] a = Memory.read [(0, 0x01#8), (0xFFFF, 0xFF#8)] a :=
  ⟨rfl, rfl, fun _ => rfl⟩

theorem test_witness_RewritingAHeldValueChangesNothing :
    (ready regs [(0xC000, 0xFF#8)]).Inv ∧ (ready regs [(0xC000, 0xFF#8)]).ready = true := ⟨rfl, rfl⟩

theorem test_witness_StoresAreSeenByTheNextFetch_host :
    (ready regs []).ready = true ∧ decode 0xCB#8 0x87#8 = .ok (.resA 0) := by decide
theorem test_witness_StoresAreSeenByTheNextFetch_own_first_byte :
    let s := ready { regs with pc := 0xC000 } [(0xC000, 0xCB#8)]
    s.ready = true ∧ s.rf.pc = s.effectiveAddress .HL ∧
    (∃ t, exec (.resHL 7) s = .next t) ∧ ∃ t, exec (.setHL 0) s = .next t :=
  ⟨rfl, rfl, ⟨_, rfl⟩, _, rfl⟩
theorem test_witness_StoresAreSeenByTheNextFetch_own_second_byte :
    ownByte.ready = true ∧ ownByte.cell ownByte.rf.pc = 0xCB#8 ∧
    ownByte.cell (ownByte.rf.pc + 1#16) = 0xBE#8 ∧
    ownByte.effectiveAddress .HL = ownByte.rf.pc + 1#16 := by decide

theorem test_witness_ConstructionChecksInOrder :
    RawDescriptor.wellFormed ⟨.resetBit 7, .registerDirect .F⟩ = true ∧ 8 ≤ 8 ∧ 7 < 8 ∧
    RegId.isReg8 .HL = false ∧ RegId.isPair .SP = false ∧ reg8OfId .F = some .F ∧
    pairOfId .DE = some .DE ∧ (0x00#8 : Byte) ≠ 0xCB#8 := by decide

theorem test_witness_RejectionChangesNothing :
    (hostOp .step (ready regs [])).2 =
      .rejected (.unknownOpcode 0x0100#16 (.firstByte 0x00#8)) ∧
    (hostOp (.set16 .A 0x1234) (ready regs [])).2 = .rejected (.unknownRegister .A) ∧
    (hostOp (.execute ⟨.setBit 8, .registerDirect .A⟩) (ready regs [])).2 =
      .rejected (.bitIndexOutOfRange 8) := by decide

theorem test_witness_RejectionCausesByLevel :
    step (ready regs []) = .fault (.unknownOpcode 0x0100#16 (.firstByte 0x00#8)) ∧
    constructAndExecute ⟨.setBit 8, .registerDirect .SP⟩ (ready regs []) =
      .fault (.bitIndexOutOfRange 8) ∧
    constructAndExecute ⟨.setBit 7, .registerDirect .SP⟩ (ready regs []) =
      .fault (.unknownRegister .SP) := ⟨rfl, rfl, rfl⟩

theorem test_witness_StepKeepsTheInvariant :
    (at1000 0xBE#8 regs [(0xC000, 0x80#8)]).Inv ∧
    ∃ t, step (at1000 0xBE#8 regs [(0xC000, 0x80#8)]) = .next t := ⟨rfl, _, rfl⟩

theorem test_witness_HostSessionsKeepTheInvariant : ownByte.Inv := rfl

theorem test_witness_FreeBytesDoNotMatterWhileReady :
    ownByte.Launch ∧ ∃ t, step ownByte = .next t := ⟨rfl, _, rfl⟩

theorem test_witness_PlacedInstructionRunsNext :
    decodeTableWord 16 0xCBFF = some (.setA 7) ∧ decodeTableWord 16 0xCB86 = some (.resHL 0) ∧
    ∃ t, step (State.reset.withFetchWord 16 0xCB86) = .next t := ⟨rfl, rfl, _, rfl⟩

theorem test_witness_HostOperationsRunTheMachine :
    (∃ t, step ownByte = .next t) ∧
    step (ready regs []) = .fault (.unknownOpcode 0x0100#16 (.firstByte 0x00#8)) ∧
    (∃ t, constructAndExecute ⟨.setBit 7, .memoryIndirect .DE⟩ (ready regs []) = .next t) ∧
    constructAndExecute ⟨.setBit 7, .memoryIndirect .PC⟩ (ready regs []) =
      .fault (.unknownRegister .PC) := ⟨⟨_, rfl⟩, rfl, ⟨_, rfl⟩, rfl⟩

end Sys2Proof.Tests
end

section
/-! PROOFS. The register pairs, the result of a register-direct instruction, and the host's register
accessors (spec/10_state.md R22, R23, R29 to R31). -/

namespace Sys2Proof.Machine

/-! ### Pairs and their halves (R22) -/

/-- A pair is big-endian: its first-named register is the high byte. -/
theorem joinBytes_toNat (hi lo : Byte) : (joinBytes hi lo).toNat = hi.toNat * 256 + lo.toNat := by
  rw [joinBytes, BitVec.toNat_append, ← Nat.shiftLeft_add_eq_or_of_lt lo.isLt, Nat.shiftLeft_eq]

theorem getPair_toNat (rf : RegFile) (p : Pair) :
    (rf.getPair p).toNat = (rf.get8 (pairHi p)).toNat * 256 + (rf.get8 (pairLo p)).toNat :=
  joinBytes_toNat _ _

theorem pairHi_ne_pairLo (p : Pair) : pairHi p ≠ pairLo p := by cases p <;> decide

/-- No half of a pair is A or F. -/
theorem pair_halves_ne_A_F (p : Pair) :
    pairHi p ≠ .A ∧ pairHi p ≠ .F ∧ pairLo p ≠ .A ∧ pairLo p ≠ .F := by cases p <;> decide

@[simp] theorem get8_lo_set8_hi (rf : RegFile) (p : Pair) (v : Byte) :
    (rf.set8 (pairHi p) v).get8 (pairLo p) = rf.get8 (pairLo p) :=
  get8_set8_other rf v (pairHi_ne_pairLo p).symm

@[simp] theorem get8_hi_set8_lo (rf : RegFile) (p : Pair) (v : Byte) :
    (rf.set8 (pairLo p) v).get8 (pairHi p) = rf.get8 (pairHi p) :=
  get8_set8_other rf v (pairHi_ne_pairLo p)

@[simp] theorem getPair_set8_hi (rf : RegFile) (p : Pair) (v : Byte) :
    (rf.set8 (pairHi p) v).getPair p = joinBytes v (rf.get8 (pairLo p)) := by
  simp [RegFile.getPair]

@[simp] theorem getPair_set8_lo (rf : RegFile) (p : Pair) (v : Byte) :
    (rf.set8 (pairLo p) v).getPair p = joinBytes (rf.get8 (pairHi p)) v := by
  simp [RegFile.getPair]

@[simp] theorem get8_hi_setPair (rf : RegFile) (p : Pair) (v : Word) :
    (rf.setPair p v).get8 (pairHi p) = hiByte v := by
  simp [RegFile.setPair]

@[simp] theorem get8_lo_setPair (rf : RegFile) (p : Pair) (v : Word) :
    (rf.setPair p v).get8 (pairLo p) = loByte v := by
  simp [RegFile.setPair]

/-! ### Register-direct instructions that complete -/

/-- A RES transform that constructs clears the bit it was asked for (R120). -/
theorem transform_of_construct_resetBit {n : Nat} {xf : Transform}
    (h : constructTransform (.resetBit n) = .ok xf) (v : Byte) :
    transform xf v = v &&& ~~~ (1#8 <<< n) := by
  by_cases hn : n < 8
  · simp only [constructTransform, hn, dite_true] at h
    cases h
    rfl
  · simp [constructTransform, hn] at h

/-- A SET transform that constructs sets the bit it was asked for (R130). -/
theorem transform_of_construct_setBit {n : Nat} {xf : Transform}
    (h : constructTransform (.setBit n) = .ok xf) (v : Byte) :
    transform xf v = v ||| (1#8 <<< n) := by
  by_cases hn : n < 8
  · simp only [constructTransform, hn, dite_true] at h
    cases h
    rfl
  · simp [constructTransform, hn] at h

/-- A register-direct descriptor constructs, if at all, from its transform and the register its
identity names. -/
theorem construct_register_ok {raw : RawTransform} {id : RegId} {r : Reg8} {d : Descriptor}
    (hr : reg8OfId id = some r) (h : construct ⟨raw, .registerDirect id⟩ = .ok d) :
    ∃ xf, constructTransform raw = .ok xf ∧ d = ⟨xf, .registerDirect r⟩ := by
  cases hx : constructTransform raw with
  | error e => simp [construct, hx] at h
  | ok xf => exact ⟨xf, rfl, by simpa [construct, constructMode, hx, hr] using h.symm⟩

/-- A completed register-direct instruction transformed its one register and charged its cost. -/
theorem exec_register_next {i : Instr} {raw : RawTransform} {id : RegId} {r : Reg8} {s t : State}
    (hi : i.descriptor = ⟨raw, .registerDirect id⟩) (hr : reg8OfId id = some r)
    (h : exec i s = .next t) :
    ∃ xf, constructTransform raw = .ok xf ∧
      t = State.charge (cost xf (.registerDirect r))
        { s with rf := s.rf.set8 r (transform xf (s.rf.get8 r)) } := by
  obtain ⟨d, hd, rfl⟩ := exec_next_cases h
  obtain ⟨xf, hxf, rfl⟩ := construct_register_ok hr (hi ▸ hd)
  exact ⟨xf, hxf, execute_registerDirect xf r s⟩

/-- An instruction on a pair's high half moves the pair's address (R23). -/
theorem exec_on_pairHi_effectiveAddress {i : Instr} {raw : RawTransform} {id : RegId} (p : Pair)
    {s t : State} (hi : i.descriptor = ⟨raw, .registerDirect id⟩)
    (hr : reg8OfId id = some (pairHi p)) (h : exec i s = .next t) :
    ∃ xf, constructTransform raw = .ok xf ∧
      t.effectiveAddress p =
        joinBytes (transform xf (s.rf.get8 (pairHi p))) (s.rf.get8 (pairLo p)) := by
  obtain ⟨xf, hxf, rfl⟩ := exec_register_next hi hr h
  exact ⟨xf, hxf, by simp [State.effectiveAddress]⟩

/-- An instruction on a pair's low half moves the pair's address (R23). -/
theorem exec_on_pairLo_effectiveAddress {i : Instr} {raw : RawTransform} {id : RegId} (p : Pair)
    {s t : State} (hi : i.descriptor = ⟨raw, .registerDirect id⟩)
    (hr : reg8OfId id = some (pairLo p)) (h : exec i s = .next t) :
    ∃ xf, constructTransform raw = .ok xf ∧
      t.effectiveAddress p =
        joinBytes (s.rf.get8 (pairHi p)) (transform xf (s.rf.get8 (pairLo p))) := by
  obtain ⟨xf, hxf, rfl⟩ := exec_register_next hi hr h
  exact ⟨xf, hxf, by simp [State.effectiveAddress]⟩

/-- Settles O31: each pair through `getPair_toNat` and the read-after-write laws of its two distinct
halves, each (HL) address through the instruction's one written half. -/
theorem pairsAreViewsOfTheirHalves : Obligations.PairsAreViewsOfTheirHalves := by
  unfold Obligations.PairsAreViewsOfTheirHalves
  refine ⟨fun rf => ⟨getPair_toNat rf .BC, getPair_toNat rf .DE, getPair_toNat rf .HL⟩,
    fun rf p x y v => ?_, fun n s t => ⟨fun h => ?_, fun h => ?_, fun h => ?_, fun h => ?_⟩⟩
  · obtain ⟨hiA, hiF, loA, loF⟩ := pair_halves_ne_A_F p
    refine ⟨hiA, hiF, loA, loF, ?_, ?_, get8_hi_setPair rf p v, get8_lo_setPair rf p v,
      get8_lo_set8_hi rf p x, get8_hi_set8_lo rf p y⟩
    · simp [joinBytes_toNat]
    · simp [joinBytes_toNat]
  · obtain ⟨xf, hxf, ht⟩ := exec_on_pairHi_effectiveAddress .HL rfl rfl h
    rw [ht, transform_of_construct_resetBit hxf]; rfl
  · obtain ⟨xf, hxf, ht⟩ := exec_on_pairLo_effectiveAddress .HL rfl rfl h
    rw [ht, transform_of_construct_resetBit hxf]; rfl
  · obtain ⟨xf, hxf, ht⟩ := exec_on_pairHi_effectiveAddress .HL rfl rfl h
    rw [ht, transform_of_construct_setBit hxf]; rfl
  · obtain ⟨xf, hxf, ht⟩ := exec_on_pairLo_effectiveAddress .HL rfl rfl h
    rw [ht, transform_of_construct_setBit hxf]; rfl

/-! ### The host's register accessors (R29 to R31) -/

theorem hostOp_get8 {id : RegId} {r : Reg8} (hr : reg8OfId id = some r) (s : State) :
    hostOp (.get8 id) s = (s, .byte (s.rf.get8 r)) := by simp [hostOp, hostGet8, hr]

theorem hostOp_set8 {id : RegId} {r : Reg8} (hr : reg8OfId id = some r) (v : Byte) (s : State) :
    hostOp (.set8 id v) s = ({ s with rf := s.rf.set8 r v }, .done) := by
  simp [hostOp, hostSet8, hr]

theorem hostOp_get16 {id : RegId} {r : Reg16} (hr : reg16OfId id = some r) (s : State) :
    hostOp (.get16 id) s = (s, .word (s.rf.get16 r)) := by simp [hostOp, hostGet16, hr]

theorem hostOp_set16 {id : RegId} {r : Reg16} (hr : reg16OfId id = some r) (v : Word) (s : State) :
    hostOp (.set16 id v) s = ({ s with rf := s.rf.set16 r v }, .done) := by
  simp [hostOp, hostSet16, hr]

theorem hostOp_liet (s : State) :
    hostOp .getLastInstructionExecutionTime s = (s, .cycles s.rf.liet) := rfl

/-- A session that begins with an operation that changes no state goes on from the same state. -/
theorem hostSession_cons_of_unchanged {op : HostOp} {s : State} {x : HostResult}
    (h : hostOp op s = (s, x)) (rest : List HostOp) :
    hostSession (op :: rest) s = ((hostSession rest s).1, x :: (hostSession rest s).2) := by
  simp [hostSession, h]

/-- Settles O32: `get8` and `set8` are the register file's own accessors, at each of the eight
identities. -/
theorem hostByteRegisterAccess : Obligations.HostByteRegisterAccess := by
  unfold Obligations.HostByteRegisterAccess
  intro s v
  exact ⟨hostOp_get8 (r := .A) rfl s, hostOp_set8 (r := .A) rfl v s,
    hostOp_get8 (r := .B) rfl s, hostOp_set8 (r := .B) rfl v s,
    hostOp_get8 (r := .C) rfl s, hostOp_set8 (r := .C) rfl v s,
    hostOp_get8 (r := .D) rfl s, hostOp_set8 (r := .D) rfl v s,
    hostOp_get8 (r := .E) rfl s, hostOp_set8 (r := .E) rfl v s,
    hostOp_get8 (r := .H) rfl s, hostOp_set8 (r := .H) rfl v s,
    hostOp_get8 (r := .L) rfl s, hostOp_set8 (r := .L) rfl v s,
    hostOp_get8 (r := .F) rfl s, hostOp_set8 (r := .F) rfl v s⟩

/-- Settles O33: `get16` and `set16` are the register file's own accessors, at each of the five
identities. -/
theorem hostWordRegisterAccess : Obligations.HostWordRegisterAccess := by
  unfold Obligations.HostWordRegisterAccess
  intro s v
  exact ⟨hostOp_get16 (r := .BC) rfl s, hostOp_set16 (r := .BC) rfl v s,
    hostOp_get16 (r := .DE) rfl s, hostOp_set16 (r := .DE) rfl v s,
    hostOp_get16 (r := .HL) rfl s, hostOp_set16 (r := .HL) rfl v s,
    hostOp_get16 (r := .SP) rfl s, hostOp_set16 (r := .SP) rfl v s,
    hostOp_get16 (r := .PC) rfl s, hostOp_set16 (r := .PC) rfl v s⟩

/-- Settles O35: a view that changes no state leaves the second reading the same state. -/
theorem lietViewChangesNothing : Obligations.LietViewChangesNothing := by
  unfold Obligations.LietViewChangesNothing
  intro s
  refine ⟨hostOp_liet s, ?_⟩
  rw [hostSession_cons_of_unchanged (hostOp_liet s), hostSession_cons_of_unchanged (hostOp_liet s)]
  rfl

end Sys2Proof.Machine
end

section
/-! PROOFS. The memory unit's byte access while ready, and the readiness flag
(spec/20_memory.md R52, R53, R66). -/

namespace Sys2Proof.Machine

/-! ### Byte access (R52, R53) -/

/-- The host's byte read while ready: the cell's value, in the same state. -/
theorem hostOp_readByte_ready {s : State} (a : Word) (h : s.ready = true) :
    hostOp (.readByte a) s = (s, .byte (s.cell a)) := by simp [hostOp, readByte_ready a h]

theorem hostOp_writeByte (s : State) (a : Word) (v : Byte) :
    hostOp (.writeByte a v) s = (s.writeByte a v, .done) := rfl

/-- While ready, the written cell holds the byte written. -/
theorem writeByte_cell_same_ready {s : State} (a : Word) (v : Byte) (h : s.ready = true) :
    (s.writeByte a v).cell a = v := by rw [writeByte_ready a v h, setCell_cell_same]

/-- A byte write, whatever `ready` is, changes no register, not `ready`, and draws nothing. -/
theorem writeByte_sameButCells (s : State) (a : Word) (v : Byte) :
    Statement.SameButCells s (s.writeByte a v) :=
  ⟨writeByte_rf s a v, writeByte_ready_unchanged s a v, writeByte_draws s a v⟩

/-- Settles O38: the read-back is the host's read, in a state that is still ready, of the cell that
was just written. -/
theorem byteReadsAndWrites : Obligations.ByteReadsAndWrites := by
  unfold Obligations.ByteReadsAndWrites
  intro s a v hready
  have hstill : (s.writeByte a v).ready = true := (writeByte_ready_unchanged s a v).trans hready
  have hcell := writeByte_cell_same_ready a v hready
  refine ⟨hostOp_readByte_ready a hready, hostOp_writeByte s a v, hcell,
    fun _ => writeByte_cell_other s v, writeByte_sameButCells s a v, ?_⟩
  rw [hostOp_readByte_ready a hstill, hcell]

/-! ### The readiness flag (R66) -/

theorem hostOp_setSystemReady (s : State) (flag : Bool) :
    hostOp (.setSystemReady flag) s = ({ s with ready := flag }, .done) := rfl

@[simp] theorem load_ready (m : Mode) (s : State) : (load m s).2.ready = s.ready := by
  cases m with
  | registerDirect r => rfl
  | memoryIndirect p => exact readByte_ready_unchanged s _

@[simp] theorem store_ready (m : Mode) (w : Byte) (s : State) : (store m w s).ready = s.ready := by
  cases m with
  | registerDirect r => rfl
  | memoryIndirect p => exact writeByte_ready_unchanged s _ w

/-- None of the four phases writes `ready`. -/
@[simp] theorem execute_ready (d : Descriptor) (s : State) : (execute d s).ready = s.ready := by
  simp [execute]

theorem exec_keeps_ready {i : Instr} {s t : State} (h : exec i s = .next t) :
    t.ready = s.ready := by
  obtain ⟨d, -, rfl⟩ := exec_next_cases h
  exact execute_ready d s

/-- Settles O42: the host's operation is the one record update, and an accepted instruction is one
`execute`, whose load, store and charge leave `ready` as it was. -/
theorem setSystemReadyWritesReadyOnly : Obligations.SetSystemReadyWritesReadyOnly := by
  unfold Obligations.SetSystemReadyWritesReadyOnly
  exact ⟨fun s flag => ⟨hostOp_setSystemReady s flag, hostOp_setSystemReady s s.ready⟩,
    fun _ _ _ => exec_keeps_ready⟩

end Sys2Proof.Machine
end

section
/-! PROOFS. Canonical memory is extensional, so writing back the byte a cell holds changes nothing
(spec/10_state.md R32, spec/20_memory.md R61). -/

namespace Sys2Proof.Machine

theorem read_cons_same (k : Nat) (v : Byte) (rest : Memory) :
    Memory.read ((k, v) :: rest) k = v := if_pos rfl

theorem read_cons_other {k a : Nat} (v : Byte) (rest : Memory) (h : k ≠ a) :
    Memory.read ((k, v) :: rest) a = rest.read a := if_neg h

/-- A canonical list's head is a nonzero byte within the bound, and its rest is canonical above it. -/
theorem wfFrom_cons {lo k : Nat} {v : Byte} {rest : Memory}
    (h : Memory.wfFrom lo ((k, v) :: rest) = true) :
    lo ≤ k ∧ v ≠ 0#8 ∧ Memory.wfFrom (k + 1) rest = true := by
  simp only [Memory.wfFrom, Bool.and_eq_true, decide_eq_true_eq] at h
  obtain ⟨⟨⟨hlo, -⟩, hv⟩, hrest⟩ := h
  exact ⟨hlo, hv, hrest⟩

/-- The bound of a canonical list can be raised to its head's address. -/
theorem wfFrom_head {lo k : Nat} {v : Byte} {rest : Memory}
    (h : Memory.wfFrom lo ((k, v) :: rest) = true) :
    Memory.wfFrom k ((k, v) :: rest) = true := by
  simp only [Memory.wfFrom, Bool.and_eq_true, decide_eq_true_eq] at h ⊢
  obtain ⟨⟨⟨-, hk⟩, hv⟩, hrest⟩ := h
  exact ⟨⟨⟨le_rfl, hk⟩, hv⟩, hrest⟩

/-- A canonical list reads as 0x00 below its bound. -/
theorem read_below_wfFrom {m : Memory} {lo a : Nat} (h : m.wfFrom lo = true) (ha : a < lo) :
    m.read a = 0#8 := by
  induction m generalizing lo with
  | nil => rfl
  | cons c rest ih =>
    obtain ⟨k, v⟩ := c
    obtain ⟨hlo, -, hrest⟩ := wfFrom_cons h
    rw [read_cons_other v rest (by omega)]
    exact ih hrest (by omega)

/-- The head's nonzero byte is read in every list that reads alike, so it lies within that list's
bound too. -/
theorem bound_le_head_of_read_eq {m rest : Memory} {lo k : Nat} {v : Byte} (h : m.wfFrom lo = true)
    (hv : v ≠ 0#8) (hread : m.read k = Memory.read ((k, v) :: rest) k) : lo ≤ k := by
  by_contra hlt
  rw [read_cons_same, read_below_wfFrom h (Nat.lt_of_not_le hlt)] at hread
  exact hv hread.symm

/-- Canonical lists are determined by what they read as. -/
theorem eq_of_wfFrom_of_read_eq {m m' : Memory} {lo lo' : Nat} (h : m.wfFrom lo = true)
    (h' : m'.wfFrom lo' = true) (hread : ∀ a, m.read a = m'.read a) : m = m' := by
  induction m generalizing m' lo lo' with
  | nil =>
    cases m' with
    | nil => rfl
    | cons c' rest' =>
      obtain ⟨k', v'⟩ := c'
      obtain ⟨-, hv', -⟩ := wfFrom_cons h'
      exact absurd ((read_cons_same k' v' rest').symm.trans (hread k').symm) hv'
  | cons c rest ih =>
    obtain ⟨k, v⟩ := c
    obtain ⟨-, hv, hrest⟩ := wfFrom_cons h
    cases m' with
    | nil => exact absurd ((read_cons_same k v rest).symm.trans (hread k)) hv
    | cons c' rest' =>
      obtain ⟨k', v'⟩ := c'
      obtain ⟨-, hv', hrest'⟩ := wfFrom_cons h'
      have hle : k ≤ k' := bound_le_head_of_read_eq (wfFrom_head h) hv' (hread k')
      have hge : k' ≤ k := bound_le_head_of_read_eq (wfFrom_head h') hv (hread k).symm
      obtain rfl : k = k' := le_antisymm hle hge
      have hv_eq : v = v' := by simpa only [read_cons_same] using hread k
      have htail : ∀ a, Memory.read rest a = Memory.read rest' a := by
        intro a
        rcases Nat.lt_or_ge k a with hlt | hge
        · simpa only [read_cons_other _ _ hlt.ne] using hread a
        · rw [read_below_wfFrom hrest (by omega), read_below_wfFrom hrest' (by omega)]
      rw [hv_eq, ih hrest hrest' htail]

/-- Writing to an address the byte it reads as leaves canonical memory as it was. -/
theorem write_read_self {m : Memory} {a : Nat} (ha : a < 65536) (h : m.wf = true) :
    m.write a (m.read a) = m := by
  refine eq_of_wfFrom_of_read_eq (write_keeps_wf _ ha h) h fun b => ?_
  by_cases hb : b = a
  · rw [hb, read_write_same]
  · exact read_write_other m _ hb

theorem setCell_cell_self {s : State} (a : Word) (h : s.Inv) : s.setCell a (s.cell a) = s := by
  rw [State.setCell, State.cell, write_read_self a.isLt h]

end Sys2Proof.Machine
end

section
/-! PROOFS. The execute stage: its operands, its charge, its frame, and that it always completes
(spec/40_execute_contract.md R105 to R116). -/

namespace Sys2Proof.Machine

/-! ### Operand access (R105 to R107) -/

/-- A load writes no register, so the pair's address stays the same for the store. -/
@[simp] theorem load_rf (m : Mode) (s : State) : (load m s).2.rf = s.rf := by
  cases m with
  | registerDirect r => rfl
  | memoryIndirect p => exact readByte_rf s _

@[simp] theorem set8_get8_self (rf : RegFile) (r : Reg8) : rf.set8 r (rf.get8 r) = rf := by
  cases r <;> rfl

theorem load_registerDirect (r : Reg8) (s : State) :
    load (.registerDirect r) s = (s.rf.get8 r, s) := rfl

theorem store_registerDirect (r : Reg8) (w : Byte) (s : State) :
    store (.registerDirect r) w s = { s with rf := s.rf.set8 r w } := rfl

theorem load_memoryIndirect (p : Pair) (s : State) :
    load (.memoryIndirect p) s = s.readByte (s.effectiveAddress p) := rfl

theorem store_memoryIndirect (p : Pair) (w : Byte) (s : State) :
    store (.memoryIndirect p) w s = s.writeByte (s.effectiveAddress p) w := rfl

theorem effectiveAddress_eq_halves (s : State) (p : Pair) :
    s.effectiveAddress p = s.rf.get8 (pairHi p) ++ s.rf.get8 (pairLo p) := rfl

theorem effectiveAddress_load (m : Mode) (p : Pair) (s : State) :
    (load m s).2.effectiveAddress p = s.effectiveAddress p := by
  rw [State.effectiveAddress, load_rf, State.effectiveAddress]

/-- Storing the register just loaded changes nothing. -/
theorem store_get8_self (r : Reg8) (s : State) :
    store (.registerDirect r) (s.rf.get8 r) s = s := by
  rw [store_registerDirect, set8_get8_self]

/-- While ready, storing the byte just loaded through a pair changes nothing. -/
theorem store_load_self_ready {s : State} (p : Pair) (hinv : s.Inv) (hready : s.ready = true) :
    store (.memoryIndirect p) (load (.memoryIndirect p) s).1 s = s := by
  rw [store_memoryIndirect, load_memoryIndirect, readByte_ready _ hready, writeByte_ready _ _ hready,
    setCell_cell_self _ hinv]

/-- Settles O37: the access equations of each mode; the store back through a pair rewrites a cell with
the byte it holds, which canonical memory does not show. -/
theorem loadAndStoreUseOnePlace : Obligations.LoadAndStoreUseOnePlace := by
  unfold Obligations.LoadAndStoreUseOnePlace
  refine ⟨fun r s w => ⟨load_registerDirect r s, store_registerDirect r w s, store_get8_self r s⟩,
    fun p s w => ⟨?_, ?_, effectiveAddress_load _ p s, store_load_self_ready p⟩⟩
  · rw [load_memoryIndirect, effectiveAddress_eq_halves]
  · rw [store_memoryIndirect, effectiveAddress_eq_halves]

/-! ### Cost and charge (R109 to R111) -/

theorem cycResReg_lt_cycResMem : Config.cycResReg < Config.cycResMem := by
  unfold Config.cycResReg Config.cycResMem
  omega

theorem cycSetReg_lt_cycSetMem : Config.cycSetReg < Config.cycSetMem := by
  unfold Config.cycSetMem
  omega

/-- Settles O29: each cost is its family's constant for the kind of mode, and the constants are so
ordered. -/
theorem registerDirectIsCheaper : Obligations.RegisterDirectIsCheaper := by
  unfold Obligations.RegisterDirectIsCheaper
  exact fun _ _ _ _ => ⟨cycResReg_lt_cycResMem, cycSetReg_lt_cycSetMem⟩

/-- The bit index is no part of a reset's cost. -/
theorem cost_resetBit_eq (n m : Fin 8) (mode : Mode) :
    cost (.resetBit n) mode = cost (.resetBit m) mode := by cases mode <;> rfl

/-- The bit index is no part of a set's cost. -/
theorem cost_setBit_eq (n m : Fin 8) (mode : Mode) :
    cost (.setBit n) mode = cost (.setBit m) mode := by cases mode <;> rfl

@[simp] theorem execute_liet (d : Descriptor) (s : State) :
    (execute d s).rf.liet = cost d.xf d.mode := charge_liet _ _

/-- The later of two charges is the one that counts. -/
@[simp] theorem charge_charge (c c' : Nat) (s : State) :
    (s.charge c).charge c' = s.charge c' := rfl

@[simp] theorem setCell_charge (c : Nat) (s : State) (a : Word) (v : Byte) :
    (s.charge c).setCell a v = (s.setCell a v).charge c := rfl

@[simp] theorem drawByte_charge (c : Nat) (s : State) :
    (s.charge c).drawByte = (s.drawByte.1, s.drawByte.2.charge c) := rfl

/-- A byte read, whatever `ready` is, neither reads nor writes `liet`. -/
theorem readByte_charge (c : Nat) (s : State) (a : Word) :
    (s.charge c).readByte a = ((s.readByte a).1, (s.readByte a).2.charge c) := by
  cases hready : s.ready with
  | true => simp [State.readByte, hready]
  | false => cases hp : Config.notReadyRead <;> simp [State.readByte, hready, hp]

/-- A byte write, whatever `ready` is, neither reads nor writes `liet`. -/
theorem writeByte_charge (c : Nat) (s : State) (a : Word) (v : Byte) :
    (s.charge c).writeByte a v = (s.writeByte a v).charge c := by
  cases hready : s.ready with
  | true => simp [State.writeByte, hready]
  | false => cases hp : Config.notReadyWrite <;> simp [State.writeByte, hready, hp]

theorem load_charge (c : Nat) (m : Mode) (s : State) :
    load m (s.charge c) = ((load m s).1, (load m s).2.charge c) := by
  cases m with
  | registerDirect r => simp [load_registerDirect]
  | memoryIndirect p => simp [load_memoryIndirect, State.effectiveAddress, readByte_charge]

theorem store_charge (c : Nat) (m : Mode) (w : Byte) (s : State) :
    store m w (s.charge c) = (store m w s).charge c := by
  cases m with
  | registerDirect r => cases r <;> rfl
  | memoryIndirect p => simp [store_memoryIndirect, State.effectiveAddress, writeByte_charge]

/-- What `liet` held before the execute stage is lost: every phase passes it on, and the charge
overwrites it. -/
theorem execute_charge (d : Descriptor) (c : Nat) (s : State) :
    execute d (s.charge c) = execute d s := by
  simp [execute, load_charge, store_charge]

/-- Settles O30: a state with another `liet` is a charged state (`execute_charge`), and the charge is
the variant's cost (`execute_liet`), in which the bit index has no part. -/
theorem chargeOverwritesLiet : Obligations.ChargeOverwritesLiet := by
  unfold Obligations.ChargeOverwritesLiet
  refine ⟨fun d s x => ⟨execute_liet d s, execute_charge d x s⟩, fun n m mode s u => ⟨?_, ?_⟩⟩
  · rw [execute_liet, execute_liet]
    exact cost_resetBit_eq n m mode
  · rw [execute_liet, execute_liet]
    exact cost_setBit_eq n m mode

/-! ### The frame (R112) -/

@[simp] theorem store_sp (m : Mode) (w : Byte) (s : State) : (store m w s).rf.sp = s.rf.sp := by
  cases m with
  | registerDirect r => exact set8_sp _ _ _
  | memoryIndirect p => rw [store_memoryIndirect, writeByte_rf]

@[simp] theorem store_pc (m : Mode) (w : Byte) (s : State) : (store m w s).rf.pc = s.rf.pc := by
  cases m with
  | registerDirect r => exact set8_pc _ _ _
  | memoryIndirect p => rw [store_memoryIndirect, writeByte_rf]

@[simp] theorem execute_sp (d : Descriptor) (s : State) : (execute d s).rf.sp = s.rf.sp := by
  simp [execute]

@[simp] theorem execute_pc (d : Descriptor) (s : State) : (execute d s).rf.pc = s.rf.pc := by
  simp [execute]

theorem execute_registerDirect_get8_other (xf : Transform) {r q : Reg8} (s : State) (h : q ≠ r) :
    (execute ⟨xf, .registerDirect r⟩ s).rf.get8 q = s.rf.get8 q := by
  rw [execute_registerDirect, charge_get8]
  exact get8_set8_other _ _ h

@[simp] theorem execute_registerDirect_mem (xf : Transform) (r : Reg8) (s : State) :
    (execute ⟨xf, .registerDirect r⟩ s).mem = s.mem := by
  rw [execute_registerDirect, charge_mem]

theorem execute_registerDirect_cell (xf : Transform) (r : Reg8) (s : State) (a : Word) :
    (execute ⟨xf, .registerDirect r⟩ s).cell a = s.cell a := by
  rw [State.cell, execute_registerDirect_mem, State.cell]

@[simp] theorem execute_memoryIndirect_get8 (xf : Transform) (p : Pair) (s : State) (q : Reg8) :
    (execute ⟨xf, .memoryIndirect p⟩ s).rf.get8 q = s.rf.get8 q := by
  rw [execute_memoryIndirect, charge_get8, writeByte_rf, readByte_rf]

@[simp] theorem execute_memoryIndirect_getPair (xf : Transform) (p q : Pair) (s : State) :
    (execute ⟨xf, .memoryIndirect p⟩ s).rf.getPair q = s.rf.getPair q := by
  simp [RegFile.getPair]

theorem execute_memoryIndirect_cell_other (xf : Transform) {p : Pair} {s : State} {a : Word}
    (h : a ≠ s.effectiveAddress p) : (execute ⟨xf, .memoryIndirect p⟩ s).cell a = s.cell a := by
  rw [execute_memoryIndirect, charge_cell, writeByte_cell_other _ _ h, readByte_cell]

/-- Settles O21: `sp`, `pc`, `ready` and `liet` from the four phases in either mode; the registers and
cells from the one place each mode stores to. -/
theorem executedDescriptorFrame : Obligations.ExecutedDescriptorFrame := by
  unfold Obligations.ExecutedDescriptorFrame
  exact ⟨fun xf r s => ⟨fun q => execute_registerDirect_get8_other xf s, execute_sp _ s,
      execute_pc _ s, execute_registerDirect_cell xf r s, execute_ready _ s, execute_liet _ s⟩,
    fun xf p s => ⟨execute_memoryIndirect_get8 xf p s, execute_memoryIndirect_getPair xf p p s,
      execute_sp _ s, execute_pc _ s, fun a => execute_memoryIndirect_cell_other xf,
      execute_ready _ s, execute_liet _ s⟩⟩

/-! ### Completion (R116) -/

theorem reg8OfId_isSome (id : RegId) : (reg8OfId id).isSome = id.isReg8 := by cases id <;> rfl

theorem pairOfId_isSome (id : RegId) : (pairOfId id).isSome = id.isPair := by cases id <;> rfl

theorem constructTransform_of_wellFormed {xf : RawTransform} (h : xf.wellFormed = true) :
    ∃ b, constructTransform xf = .ok b := by
  cases xf with
  | resetBit n => exact ⟨_, dif_pos (of_decide_eq_true h)⟩
  | setBit n => exact ⟨_, dif_pos (of_decide_eq_true h)⟩

theorem constructMode_of_wellFormed {m : RawMode} (h : m.wellFormed = true) :
    ∃ b, constructMode m = .ok b := by
  cases m with
  | registerDirect id =>
    obtain ⟨r, hr⟩ := Option.isSome_iff_exists.mp ((reg8OfId_isSome id).trans h)
    exact ⟨.registerDirect r, by simp [constructMode, hr]⟩
  | memoryIndirect id =>
    obtain ⟨p, hp⟩ := Option.isSome_iff_exists.mp ((pairOfId_isSome id).trans h)
    exact ⟨.memoryIndirect p, by simp [constructMode, hp]⟩

/-- A descriptor that passes the checks of R82 constructs. -/
theorem construct_of_wellFormed {d : RawDescriptor} (h : d.wellFormed = true) :
    ∃ b, construct d = .ok b := by
  obtain ⟨hxf, hmode⟩ := Bool.and_eq_true_iff.mp h
  obtain ⟨xf, hxf⟩ := constructTransform_of_wellFormed hxf
  obtain ⟨mode, hmode⟩ := constructMode_of_wellFormed hmode
  exact ⟨⟨xf, mode⟩, by simp [construct, hxf, hmode]⟩

theorem constructAndExecute_of_construct {d : RawDescriptor} {b : Descriptor}
    (h : construct d = .ok b) (s : State) : constructAndExecute d s = .next (execute b s) := by
  simp [constructAndExecute, h]

/-- Settles O18: a well-formed instruction's descriptor constructs, and what constructs executes. -/
theorem everyWellFormedInstructionCompletes : Obligations.EveryWellFormedInstructionCompletes := by
  unfold Obligations.EveryWellFormedInstructionCompletes
  refine ⟨fun i s hwf => ?_, fun d b s hb => constructAndExecute_of_construct hb s⟩
  obtain ⟨b, hb⟩ := construct_of_wellFormed (d := i.descriptor) hwf
  exact ⟨execute b s, by rw [exec_eq_constructAndExecute, constructAndExecute_of_construct hb]⟩

end Sys2Proof.Machine
end

section
/-! PROOFS. The bit-reset family: encodings, the bits of the transform, what construction rejects,
and the result of RES in each addressing mode (spec/41_bit_reset.md R120 to R122). -/

namespace Sys2Proof

/-! ### Encoding and the operands the binary level reaches (R83 to R87) -/

/-- The second byte's fields stand at bits 7:6, 5:3 and 2:0 of its value. -/
theorem fields_join_eq_ofNat (tt : BitVec 2) (bbb rrr : BitVec 3) :
    tt ++ bbb ++ rrr = BitVec.ofNat 8 (64 * tt.toNat + 8 * bbb.toNat + rrr.toNat) := by
  revert tt bbb rrr
  decide

theorem encode_eq_ofNat {i : Instr} (hn : i.bitIndex < 8) :
    encode i = (0xCB#8, BitVec.ofNat 8 (64 * i.tt.toNat + 8 * i.bitIndex + i.rrr.toNat)) := by
  rw [encode, fields_join_eq_ofNat, BitVec.toNat_ofNat, Nat.mod_eq_of_lt hn, cbByte]

/-- No instruction has F as its operand. -/
theorem Instr.mode_ne_registerDirect_F (i : Instr) : i.descriptor.mode ≠ .registerDirect .F := by
  cases i <;> simp [Instr.descriptor]

/-- An instruction reaches memory through HL only. -/
theorem Instr.mode_memoryIndirect_HL {i : Instr} {id : RegId}
    (h : i.descriptor.mode = .memoryIndirect id) : id = .HL := by
  cases i <;> cases h <;> rfl

end Sys2Proof

namespace Sys2Proof.Machine

/-! ### The bits of the transform (R120) -/

theorem bitMask_getLsbD (n : Fin 8) (k : Nat) : (bitMask n).getLsbD k = decide (n.val = k) := by
  have h : bitMask n = BitVec.twoPow 8 n.val := rfl
  simp [h, BitVec.getLsbD_twoPow]

/-- A reset keeps the bits of `v` but bit `n`. -/
theorem transform_resetBit_getLsbD (n : Fin 8) (v : Byte) (k : Nat) :
    (transform (.resetBit n) v).getLsbD k = (v.getLsbD k && !decide (n.val = k)) := by
  rcases Nat.lt_or_ge k 8 with hk | hk
  · simp only [transform, BitVec.getLsbD_and, BitVec.getLsbD_not, bitMask_getLsbD, hk,
      decide_true, Bool.true_and]
  · simp [BitVec.getLsbD_of_ge _ k hk]

/-- Settles O24: each bit of the result by `transform_resetBit_getLsbD`; the masks and scenarios are
computed. -/
theorem resetBitClearsOneBit : Obligations.ResetBitClearsOneBit := by
  unfold Obligations.ResetBitClearsOneBit
  refine ⟨fun n v => ⟨rfl, ?_, fun k hk => ?_⟩, by decide, by decide, by decide⟩
  · rw [transform_resetBit_getLsbD, decide_eq_true rfl, Bool.not_true, Bool.and_false]
  · rw [transform_resetBit_getLsbD, decide_eq_false hk.symm, Bool.not_false, Bool.and_true]

/-! ### What construction rejects (R82) -/

theorem constructTransform_resetBit_outOfRange {n : Nat} (hn : 8 ≤ n) :
    constructTransform (.resetBit n) = .error (.bitIndexOutOfRange n) := dif_neg hn.not_gt

theorem constructMode_registerDirect_unknown {id : RegId} (h : id.isReg8 = false) :
    constructMode (.registerDirect id) = .error (.unknownRegister id) := by
  have hnone : reg8OfId id = none := Option.not_isSome_iff_eq_none.mp (by simp [reg8OfId_isSome, h])
  simp [constructMode, hnone]

theorem constructMode_memoryIndirect_unknown {id : RegId} (h : id.isPair = false) :
    constructMode (.memoryIndirect id) = .error (.unknownRegister id) := by
  have hnone : pairOfId id = none := Option.not_isSome_iff_eq_none.mp (by simp [pairOfId_isSome, h])
  simp [constructMode, hnone]

/-- A transform that does not construct is reported first, whatever the mode (R158). -/
theorem constructAndExecute_transform_error {xf : RawTransform} {e : Fault}
    (h : constructTransform xf = .error e) (m : RawMode) (s : State) :
    constructAndExecute ⟨xf, m⟩ s = .fault e := by
  simp [constructAndExecute, construct, h, reject]

/-- With the bit index in range, a mode that does not construct is reported. -/
theorem constructAndExecute_mode_error {xf : RawTransform} {m : RawMode} {e : Fault}
    (hxf : xf.wellFormed = true) (h : constructMode m = .error e) (s : State) :
    constructAndExecute ⟨xf, m⟩ s = .fault e := by
  obtain ⟨b, hb⟩ := constructTransform_of_wellFormed hxf
  simp [constructAndExecute, construct, hb, h, reject]

theorem constructAndExecute_resetBit_outOfRange {n : Nat} (hn : 8 ≤ n) (m : RawMode) (s : State) :
    constructAndExecute ⟨.resetBit n, m⟩ s = .fault (.bitIndexOutOfRange n) :=
  constructAndExecute_transform_error (constructTransform_resetBit_outOfRange hn) m s

theorem constructAndExecute_resetBit_mode_error {n : Nat} {m : RawMode} {e : Fault} (hn : n < 8)
    (h : constructMode m = .error e) (s : State) :
    constructAndExecute ⟨.resetBit n, m⟩ s = .fault e :=
  constructAndExecute_mode_error (xf := .resetBit n) (decide_eq_true hn) h s

/-! ### RES n,r (R121) -/

/-- RES on a register clears its bit `n` and charges 2. -/
theorem constructAndExecute_resetBit_register {n : Nat} {id : RegId} {r : Reg8} (hn : n < 8)
    (hr : reg8OfId id = some r) (s : State) :
    constructAndExecute ⟨.resetBit n, .registerDirect id⟩ s = .next
      (State.charge 2 { s with rf := s.rf.set8 r (s.rf.get8 r &&& ~~~ (1#8 <<< n)) }) :=
  constructAndExecute_of_construct (construct_resetBit_register hn hr) s

/-- Settles O13: the one register result at each of the eight identities, the encodings from their
fields, and the two rejections of construction. -/
theorem resRegisterDirectResult : Obligations.ResRegisterDirectResult := by
  unfold Obligations.ResRegisterDirectResult
  refine ⟨fun n s hn => ?_, fun n hn => ?_,
    fun n id s hn => constructAndExecute_resetBit_outOfRange hn _ s,
    fun n id s hn hid => constructAndExecute_resetBit_mode_error hn
      (constructMode_registerDirect_unknown hid) s,
    fun _ _ i _ => i.mode_ne_registerDirect_F⟩
  · have result {id : RegId} (r : Reg8) (hr : reg8OfId id = some r) :=
      constructAndExecute_resetBit_register hn hr s
    exact ⟨result .B rfl, result .C rfl, result .D rfl, result .E rfl, result .H rfl,
      result .L rfl, result .A rfl, result .F rfl⟩
  · exact ⟨encode_eq_ofNat hn, encode_eq_ofNat hn, encode_eq_ofNat hn, encode_eq_ofNat hn,
      encode_eq_ofNat hn, encode_eq_ofNat hn, encode_eq_ofNat hn⟩

/-! ### RES n,(pair) (R122) -/

/-- RES through a pair, whatever `ready` is: read, clear bit `n`, write back, charge. -/
theorem constructAndExecute_resetBit_pair {n : Nat} {id : RegId} {p : Pair} (hn : n < 8)
    (hp : pairOfId id = some p) (s : State) :
    constructAndExecute ⟨.resetBit n, .memoryIndirect id⟩ s = .next
      (((s.readByte (s.effectiveAddress p)).2.writeByte (s.effectiveAddress p)
        ((s.readByte (s.effectiveAddress p)).1 &&& ~~~ (1#8 <<< n))).charge Config.cycResMem) := by
  rw [constructAndExecute_of_construct (construct_resetBit_pair hn hp), execute_memoryIndirect]
  rfl

/-- RES through a pair while ready writes the one cell. -/
theorem constructAndExecute_resetBit_pair_ready {n : Nat} {id : RegId} {p : Pair} (hn : n < 8)
    (hp : pairOfId id = some p) {s : State} (hready : s.ready = true) :
    constructAndExecute ⟨.resetBit n, .memoryIndirect id⟩ s = .next
      ((s.setCell (s.effectiveAddress p)
        (s.cell (s.effectiveAddress p) &&& ~~~ (1#8 <<< n))).charge Config.cycResMem) := by
  rw [constructAndExecute_resetBit_pair hn hp, readByte_ready _ hready, writeByte_ready _ _ hready]

/-- Settles O14: the result through each of the three pairs, in any state and while ready, the
encoding from its fields, and the two rejections of construction. -/
theorem resMemoryIndirectResult : Obligations.ResMemoryIndirectResult := by
  unfold Obligations.ResMemoryIndirectResult
  refine ⟨fun n s hn => ?_, fun n s hn hready => ?_, fun n hn => ?_,
    fun n id s hn => constructAndExecute_resetBit_outOfRange hn _ s,
    fun n id s hn hid => constructAndExecute_resetBit_mode_error hn
      (constructMode_memoryIndirect_unknown hid) s,
    fun _ _ i _ => ⟨fun h => ?_, fun h => ?_⟩, cycResReg_lt_cycResMem⟩
  · have result {id : RegId} (p : Pair) (hp : pairOfId id = some p) :=
      constructAndExecute_resetBit_pair hn hp s
    exact ⟨result .HL rfl, result .BC rfl, result .DE rfl⟩
  · have result {id : RegId} (p : Pair) (hp : pairOfId id = some p) :=
      constructAndExecute_resetBit_pair_ready hn hp hready
    exact ⟨result .HL rfl, result .BC rfl, result .DE rfl⟩
  · rw [encode_eq_ofNat (i := .resHL n) hn, Nat.add_right_comm]
    rfl
  · cases Instr.mode_memoryIndirect_HL h
  · cases Instr.mode_memoryIndirect_HL h

end Sys2Proof.Machine
end

section
/-! PROOFS. The set-bit family: the bits of the transform, what construction rejects, and the result of
SET in each addressing mode (spec/42_bit_set.md R130 to R132). -/

namespace Sys2Proof.Machine

/-! ### The bits of the transform and its construction check (R130) -/

/-- A set keeps the bits of `v` and adds bit `n`. -/
theorem transform_setBit_getLsbD (n : Fin 8) (v : Byte) (k : Nat) :
    (transform (.setBit n) v).getLsbD k = (v.getLsbD k || decide (n.val = k)) := by
  simp only [transform, BitVec.getLsbD_or, bitMask_getLsbD]

theorem constructTransform_setBit_outOfRange {n : Nat} (hn : 8 ≤ n) :
    constructTransform (.setBit n) = .error (.bitIndexOutOfRange n) := dif_neg hn.not_gt

/-- Settles O25: each bit of the result by `transform_setBit_getLsbD`; the masks are computed. -/
theorem setBitSetsOneBit : Obligations.SetBitSetsOneBit := by
  unfold Obligations.SetBitSetsOneBit
  refine ⟨fun n v => ⟨rfl, ?_, fun k hk => ?_⟩, by decide,
    fun n => constructTransform_setBit_outOfRange⟩
  · rw [transform_setBit_getLsbD, decide_eq_true rfl, Bool.or_true]
  · rw [transform_setBit_getLsbD, decide_eq_false hk.symm, Bool.or_false]

/-! ### What construction rejects (R82) -/

theorem constructAndExecute_setBit_outOfRange {n : Nat} (hn : 8 ≤ n) (m : RawMode) (s : State) :
    constructAndExecute ⟨.setBit n, m⟩ s = .fault (.bitIndexOutOfRange n) :=
  constructAndExecute_transform_error (constructTransform_setBit_outOfRange hn) m s

theorem constructAndExecute_setBit_mode_error {n : Nat} {m : RawMode} {e : Fault} (hn : n < 8)
    (h : constructMode m = .error e) (s : State) :
    constructAndExecute ⟨.setBit n, m⟩ s = .fault e :=
  constructAndExecute_mode_error (xf := .setBit n) (decide_eq_true hn) h s

/-! ### SET n,r (R131) -/

/-- SET on a register sets its bit `n` and charges `CYC_SET_REG`. -/
theorem constructAndExecute_setBit_register {n : Nat} {id : RegId} {r : Reg8} (hn : n < 8)
    (hr : reg8OfId id = some r) (s : State) :
    constructAndExecute ⟨.setBit n, .registerDirect id⟩ s = .next
      (State.charge Config.cycSetReg { s with rf := s.rf.set8 r (s.rf.get8 r ||| (1#8 <<< n)) }) :=
  constructAndExecute_of_construct (construct_setBit_register hn hr) s

/-- Settles O15: the one register result at each of the eight identities, the encodings from their
fields, and the two rejections of construction. -/
theorem setRegisterDirectResult : Obligations.SetRegisterDirectResult := by
  unfold Obligations.SetRegisterDirectResult
  refine ⟨fun n s hn => ?_, fun n hn => ?_,
    fun n id s hn => constructAndExecute_setBit_outOfRange hn _ s,
    fun n id s hn hid => constructAndExecute_setBit_mode_error hn
      (constructMode_registerDirect_unknown hid) s,
    fun _ _ i _ => i.mode_ne_registerDirect_F, cycSetReg_lt_cycSetMem⟩
  · have result {id : RegId} (r : Reg8) (hr : reg8OfId id = some r) :=
      constructAndExecute_setBit_register hn hr s
    exact ⟨result .B rfl, result .C rfl, result .D rfl, result .E rfl, result .H rfl,
      result .L rfl, result .A rfl, result .F rfl⟩
  · have bytes {i : Instr} (hi : i.bitIndex = n) := encode_eq_ofNat (i := i) (hi ▸ hn)
    exact ⟨bytes rfl, bytes rfl, bytes rfl, bytes rfl, bytes rfl, bytes rfl, bytes rfl⟩

/-! ### SET n,(pair) (R132) -/

/-- SET through a pair, whatever `ready` is: read, set bit `n`, write back, charge. -/
theorem constructAndExecute_setBit_pair {n : Nat} {id : RegId} {p : Pair} (hn : n < 8)
    (hp : pairOfId id = some p) (s : State) :
    constructAndExecute ⟨.setBit n, .memoryIndirect id⟩ s = .next
      (((s.readByte (s.effectiveAddress p)).2.writeByte (s.effectiveAddress p)
        ((s.readByte (s.effectiveAddress p)).1 ||| (1#8 <<< n))).charge Config.cycSetMem) := by
  rw [constructAndExecute_of_construct (construct_setBit_pair hn hp), execute_memoryIndirect]
  rfl

/-- SET through a pair while ready writes the one cell. -/
theorem constructAndExecute_setBit_pair_ready {n : Nat} {id : RegId} {p : Pair} (hn : n < 8)
    (hp : pairOfId id = some p) {s : State} (hready : s.ready = true) :
    constructAndExecute ⟨.setBit n, .memoryIndirect id⟩ s = .next
      ((s.setCell (s.effectiveAddress p)
        (s.cell (s.effectiveAddress p) ||| (1#8 <<< n))).charge Config.cycSetMem) := by
  rw [constructAndExecute_setBit_pair hn hp, readByte_ready _ hready, writeByte_ready _ _ hready]

/-- Settles O16: the result through each of the three pairs, in any state and while ready, the
encoding from its fields, and the two rejections of construction. -/
theorem setMemoryIndirectResult : Obligations.SetMemoryIndirectResult := by
  unfold Obligations.SetMemoryIndirectResult
  refine ⟨fun n s hn => ?_, fun n s hn hready => ?_, fun n hn => ?_,
    fun n id s hn => constructAndExecute_setBit_outOfRange hn _ s,
    fun n id s hn hid => constructAndExecute_setBit_mode_error hn
      (constructMode_memoryIndirect_unknown hid) s,
    fun _ _ i _ => ⟨fun h => ?_, fun h => ?_⟩, cycSetReg_lt_cycSetMem⟩
  · have result {id : RegId} (p : Pair) (hp : pairOfId id = some p) :=
      constructAndExecute_setBit_pair hn hp s
    exact ⟨result .HL rfl, result .BC rfl, result .DE rfl⟩
  · have result {id : RegId} (p : Pair) (hp : pairOfId id = some p) :=
      constructAndExecute_setBit_pair_ready hn hp hready
    exact ⟨result .HL rfl, result .BC rfl, result .DE rfl⟩
  · rw [encode_eq_ofNat (i := .setHL n) hn, Nat.add_right_comm]
    rfl
  · cases Instr.mode_memoryIndirect_HL h
  · cases Instr.mode_memoryIndirect_HL h

end Sys2Proof.Machine
end

section
/-! PROOFS. The state after power-on (spec/70_reset_and_hazards.md R180; spec/10_state.md R38). -/

namespace Sys2Proof.Machine

/-- While the memory unit lists no cell, every cell holds zero. -/
theorem cell_of_mem_nil {s : State} (h : s.mem = []) (a : Word) : s.cell a = 0#8 := by
  rw [State.cell, h, read_nil]

/-- Once `setSystemReady(true)` has run, a byte read gives the cell and draws no free byte,
whatever `ready` was before. -/
theorem readByte_setSystemReady_true (s : State) (a : Word) :
    (s.setSystemReady true).readByte a = (s.cell a, s.setSystemReady true) := by
  rw [readByte_ready a (setSystemReady_ready s true), setSystemReady_cell]

@[simp] theorem powerOn_cell (rf : RegFile) (k : Nat) (a : Word) :
    (State.powerOn rf k).cell a = 0#8 := cell_of_mem_nil (powerOn_mem rf k) a

/-- Settles O50: memory after power-on lists no cell, and a read made once ready is of that same
memory; `ready` and the registers are what power-on was given. -/
theorem powerOnState : Obligations.PowerOnState := by
  unfold Obligations.PowerOnState
  intro rf k a
  have hread := readByte_setSystemReady_true (State.powerOn rf k) a
  rw [powerOn_cell] at hread
  exact ⟨powerOn_cell rf k a, hread, powerOn_ready rf k, powerOn_rf rf k⟩

end Sys2Proof.Machine
end

section
/-! PROOFS. The decoder and the encoder: each undoes the other, the three fields in full, and the
opcode table (spec/30_encoding.md R83 to R96). -/

namespace Sys2Proof

/-! ### Decode by its fields (R83 to R88) -/

/-- A first byte other than 0xCB is reported alone, whatever the second byte is (R88). -/
theorem decode_firstByte {b0 : Byte} (h : b0 ≠ cbByte) (b1 : Byte) :
    decode b0 b1 = .error (.firstByte b0) := if_neg h

/-- `tt` = 10 selects the ResetBit rows (R85). -/
theorem decode_reset {b1 : Byte} (h : fieldTt b1 = 0b10#2) :
    decode cbByte b1 = .ok (resetRow (fieldBbb b1).toNat (fieldRrr b1)) := by simp [decode, h]

/-- `tt` = 11 selects the SetBit rows (R85). -/
theorem decode_set {b1 : Byte} (h : fieldTt b1 = 0b11#2) :
    decode cbByte b1 = .ok (setRow (fieldBbb b1).toNat (fieldRrr b1)) := by simp [decode, h]

/-- `tt` is the top quarter of the second byte's value. -/
theorem fieldTt_toNat (b1 : Byte) : (fieldTt b1).toNat = b1.toNat / 64 := by
  revert b1
  decide

/-- Below 0x80 the second byte has `tt` = 00 or 01, which `decode` rejects (R85, R88). -/
theorem decode_bytePair {b1 : Byte} (h : b1.toNat < 0x80) :
    decode cbByte b1 = .error (.bytePair cbByte b1) := by
  have htt : (fieldTt b1).toNat < 2 := by rw [fieldTt_toNat]; omega
  have h2 : fieldTt b1 ≠ 0b10#2 := fun e => by rw [e] at htt; exact absurd htt (by decide)
  have h3 : fieldTt b1 ≠ 0b11#2 := fun e => by rw [e] at htt; exact absurd htt (by decide)
  simp [decode, h2, h3]

/-- From 0x80 on the second byte has `tt` = 10 or 11, which `decode` accepts (R84, R85). -/
theorem exists_decode {b1 : Byte} (h : 0x80 ≤ b1.toNat) : ∃ i, decode cbByte b1 = .ok i := by
  have hlt := b1.isLt
  rcases Nat.lt_or_ge b1.toNat 0xC0 with hlow | hhigh
  · have htt : fieldTt b1 = 0b10#2 := BitVec.eq_of_toNat_eq
      ((fieldTt_toNat b1).trans (show b1.toNat / 64 = 2 by omega))
    exact ⟨_, decode_reset htt⟩
  · have htt : fieldTt b1 = 0b11#2 := BitVec.eq_of_toNat_eq
      ((fieldTt_toNat b1).trans (show b1.toNat / 64 = 3 by omega))
    exact ⟨_, decode_set htt⟩

/-- What `decode` accepts carries the three fields of the second byte. -/
theorem decode_ok_fields {b0 b1 : Byte} {i : Instr} (h : decode b0 b1 = .ok i) :
    b0 = cbByte ∧ i.tt = fieldTt b1 ∧ i.bitIndex = (fieldBbb b1).toNat ∧ i.rrr = fieldRrr b1 := by
  obtain ⟨hb0, ⟨htt, rfl⟩ | ⟨htt, rfl⟩⟩ := decode_ok_cases h
  · rw [htt]
    exact ⟨hb0, resetRow_codes _ _⟩
  · rw [htt]
    exact ⟨hb0, setRow_codes _ _⟩

theorem decode_ok_wellFormed {b0 b1 : Byte} {i : Instr} (h : decode b0 b1 = .ok i) :
    i.wellFormed = true := i.wellFormed_iff.mpr (decode_ok_bitIndex h)

/-- Settles O1: thirteen words, each decoded by evaluation. -/
theorem decodesTheSpecsExampleWords : Obligations.DecodesTheSpecsExampleWords := by
  unfold Obligations.DecodesTheSpecsExampleWords
  decide

/-! ### Round trips (R83, R88) -/

/-- An instruction is the row that its own bit index and codes select. -/
theorem Instr.eq_row (i : Instr) :
    (i.tt = 0b10#2 ∧ resetRow i.bitIndex i.rrr = i) ∨
    (i.tt = 0b11#2 ∧ setRow i.bitIndex i.rrr = i) := by
  cases i <;> simp [Instr.tt, Instr.bitIndex, Instr.rrr, resetRow, setRow]

/-- Bytes whose fields are an instruction's codes decode to it. -/
theorem decode_of_fields {i : Instr} {b1 : Byte} (htt : fieldTt b1 = i.tt)
    (hbbb : (fieldBbb b1).toNat = i.bitIndex) (hrrr : fieldRrr b1 = i.rrr) :
    decode cbByte b1 = .ok i := by
  obtain ⟨hi, hrow⟩ | ⟨hi, hrow⟩ := i.eq_row
  · rw [decode_reset (htt.trans hi), hbbb, hrrr, hrow]
  · rw [decode_set (htt.trans hi), hbbb, hrrr, hrow]

/-- Settles O2: the encoded byte's fields are the instruction's codes and, being below 8, its bit
index. -/
theorem decodeOfEncodeIsTheInstruction : Obligations.DecodeOfEncodeIsTheInstruction := by
  unfold Obligations.DecodeOfEncodeIsTheInstruction
  intro i hwf
  have hn : i.bitIndex < 8 := i.wellFormed_iff.mp hwf
  refine decode_of_fields (fieldTt_join _ _ _) ?_ (fieldRrr_join _ _ _)
  rw [encode, fieldBbb_join, BitVec.toNat_ofNat, Nat.mod_eq_of_lt hn]

/-- The second byte is its three fields, so the codes and the index give it back. -/
theorem encode_of_decode {b0 b1 : Byte} {i : Instr} (h : decode b0 b1 = .ok i) :
    encode i = (b0, b1) := by
  obtain ⟨hb0, htt, hbbb, hrrr⟩ := decode_ok_fields h
  rw [encode, htt, hbbb, hrrr, BitVec.ofNat_toNat, BitVec.setWidth_eq, fields_join, hb0]

/-- Settles O3, by `encode_of_decode`. -/
theorem encodeOfDecodeIsTheBytes : Obligations.EncodeOfDecodeIsTheBytes := by
  unfold Obligations.EncodeOfDecodeIsTheBytes
  exact fun _ _ _ => encode_of_decode

/-! ### Operands and bit indices (R86, R87) -/

/-- The ResetBit row of a code has the operand that R87 lists for it. -/
theorem resetRow_descriptor (n : Nat) (rrr : BitVec 3) :
    (resetRow n rrr).descriptor = ⟨.resetBit n, Statement.operandOfCode rrr.toNat⟩ := by
  rcases code_cases rrr with h | h | h | h | h | h | h | h <;> subst h <;> rfl

/-- The SetBit row of a code has the operand that R87 lists for it. -/
theorem setRow_descriptor (n : Nat) (rrr : BitVec 3) :
    (setRow n rrr).descriptor = ⟨.setBit n, Statement.operandOfCode rrr.toNat⟩ := by
  rcases code_cases rrr with h | h | h | h | h | h | h | h <;> subst h <;> rfl

/-- The three fields of a byte by the value they make up. -/
theorem fields_of_toNat {b1 : Byte} {tt n rrr : Nat} (hn : n < 8) (hr : rrr < 8)
    (h : b1.toNat = 64 * tt + 8 * n + rrr) :
    fieldTt b1 = BitVec.ofNat 2 tt ∧ (fieldBbb b1).toNat = n ∧ (fieldRrr b1).toNat = rrr := by
  have hlt := b1.isLt
  have hjoin : b1 = BitVec.ofNat 2 tt ++ BitVec.ofNat 3 n ++ BitVec.ofNat 3 rrr := by
    refine BitVec.eq_of_toNat_eq ?_
    rw [fields_join_eq_ofNat, h]
    simp only [BitVec.toNat_ofNat]
    omega
  rw [hjoin, fieldTt_join, fieldBbb_join, fieldRrr_join]
  exact ⟨rfl, Nat.mod_eq_of_lt hn, Nat.mod_eq_of_lt hr⟩

/-- Settles O4: the rejections and the two families by their `tt`; injectivity because `encode`
gives the bytes back and a descriptor determines its instruction. -/
theorem decodeReadsItsThreeFields : Obligations.DecodeReadsItsThreeFields := by
  unfold Obligations.DecodeReadsItsThreeFields
  refine ⟨fun b0 b1 h => decode_firstByte h b1, fun b1 => decode_bytePair,
    fun b1 n rrr hn hr h => ?_, fun b1 n rrr hn hr h => ?_,
    fun _ _ _ => decode_ok_wellFormed, fun b0 b1 c0 c1 i j hi hj hij => ?_⟩
  · obtain ⟨htt, hbbb, hrrr⟩ := fields_of_toNat (tt := 2) hn hr h
    exact ⟨_, decode_reset htt, by rw [resetRow_descriptor, hbbb, hrrr]⟩
  · obtain ⟨htt, hbbb, hrrr⟩ := fields_of_toNat (tt := 3) hn hr h
    exact ⟨_, decode_set htt, by rw [setRow_descriptor, hbbb, hrrr]⟩
  · have hbytes : (b0, b1) = (c0, c1) := by
      rw [← encode_of_decode hi, ← encode_of_decode hj, Instr.descriptor_injective hij]
    exact Prod.mk.inj hbytes

/-! ### The opcode table (R96) -/

/-- The row of spec/opcode_table.json with the mnemonic and the codes of `i`, the bit index left
out. -/
def Instr.tableRow (i : Instr) : OpcodeRow :=
  ⟨i.mnemonic, cbByte ++ (i.tt ++ 0#3 ++ i.rrr), 0xFFC7#16⟩

/-- The table lists the row of each constructor, in the order of `Instr`. -/
theorem opcodeTable_eq_map_tableRow : opcodeTable =
    [Instr.resB 0, .resC 0, .resD 0, .resE 0, .resH 0, .resL 0, .resHL 0, .resA 0,
     .setB 0, .setC 0, .setD 0, .setE 0, .setH 0, .setL 0, .setHL 0, .setA 0].map
      Instr.tableRow := by decide

/-- Every row of the table is the row of some instruction. -/
theorem exists_tableRow {row : OpcodeRow} (h : row ∈ opcodeTable) :
    ∃ i : Instr, row = i.tableRow := by
  rw [opcodeTable_eq_map_tableRow] at h
  obtain ⟨i, -, hi⟩ := List.mem_map.mp h
  exact ⟨i, hi.symm⟩

/-- The mask `0xFFC7` keeps the first byte, `tt` and `rrr`. -/
theorem word_masked (b0 b1 : Byte) :
    (b0 ++ b1) &&& 0xFFC7#16 = b0 ++ (fieldTt b1 ++ 0#3 ++ fieldRrr b1) := by
  have hmask : (0xFFC7#16 : Word) = BitVec.allOnes 8 ++ 0xC7#8 := by decide
  have hlow : b1 &&& 0xC7#8 = fieldTt b1 ++ 0#3 ++ fieldRrr b1 := by
    revert b1
    decide
  rw [hmask, BitVec.and_append, BitVec.and_allOnes, hlow]

/-- An instruction's row is selected by the first byte 0xCB and the instruction's own codes. -/
theorem tableRow_selects_iff (i : Instr) (b0 b1 : Byte) :
    i.tableRow.selects b0 b1 = true ↔ b0 = cbByte ∧ fieldTt b1 = i.tt ∧ fieldRrr b1 = i.rrr := by
  rw [OpcodeRow.selects, decide_eq_true_eq, Instr.tableRow, word_masked]
  refine ⟨fun h => ?_, fun ⟨hb0, htt, hrrr⟩ => by rw [hb0, htt, hrrr]⟩
  have hb0 : b0 = cbByte := by
    simpa only [BitVec.extractLsb'_append_eq_left] using congrArg (·.extractLsb' 8 8) h
  have hb1 : fieldTt b1 ++ 0#3 ++ fieldRrr b1 = i.tt ++ 0#3 ++ i.rrr := by
    simpa only [BitVec.extractLsb'_append_eq_right] using congrArg (·.extractLsb' 0 8) h
  refine ⟨hb0, ?_, ?_⟩
  · simpa only [fieldTt_join] using congrArg fieldTt hb1
  · simpa only [fieldRrr_join] using congrArg fieldRrr hb1

/-- The two codes choose the mnemonic; the bit index has no part in it. -/
theorem Instr.mnemonic_of_codes (i : Instr) : i.mnemonic =
    if i.tt = 0b10#2 then (resetRow 0 i.rrr).mnemonic else (setRow 0 i.rrr).mnemonic := by
  cases i <;> rfl

/-- The two codes determine the row. -/
theorem tableRow_of_codes {i j : Instr} (htt : i.tt = j.tt) (hrrr : i.rrr = j.rrr) :
    i.tableRow = j.tableRow := by
  have hname : i.mnemonic = j.mnemonic := by
    rw [i.mnemonic_of_codes, j.mnemonic_of_codes, htt, hrrr]
  rw [Instr.tableRow, hname, htt, hrrr, Instr.tableRow]

/-- The encoding of every instruction selects the row that carries its mnemonic (R96). -/
theorem Instr.selects_own_row : (i : Instr) → Laws.RowMatch.Statement i
  | .resB n => Laws.RowMatch.resB n
  | .resC n => Laws.RowMatch.resC n
  | .resD n => Laws.RowMatch.resD n
  | .resE n => Laws.RowMatch.resE n
  | .resH n => Laws.RowMatch.resH n
  | .resL n => Laws.RowMatch.resL n
  | .resHL n => Laws.RowMatch.resHL n
  | .resA n => Laws.RowMatch.resA n
  | .setB n => Laws.RowMatch.setB n
  | .setC n => Laws.RowMatch.setC n
  | .setD n => Laws.RowMatch.setD n
  | .setE n => Laws.RowMatch.setE n
  | .setH n => Laws.RowMatch.setH n
  | .setL n => Laws.RowMatch.setL n
  | .setHL n => Laws.RowMatch.setHL n
  | .setA n => Laws.RowMatch.setA n

/-- The bytes that a row selects decode to an instruction with the row's codes. -/
theorem exists_decode_of_selects {i : Instr} {b0 b1 : Byte}
    (h : i.tableRow.selects b0 b1 = true) :
    ∃ j, decode b0 b1 = .ok j ∧ j.tt = i.tt ∧ j.rrr = i.rrr := by
  obtain ⟨rfl, htt, hrrr⟩ := (tableRow_selects_iff i b0 b1).mp h
  have hok : ∃ j, decode cbByte b1 = .ok j := by
    obtain ⟨hi, -⟩ | ⟨hi, -⟩ := i.eq_row
    · exact ⟨_, decode_reset (htt.trans hi)⟩
    · exact ⟨_, decode_set (htt.trans hi)⟩
  obtain ⟨j, hj⟩ := hok
  obtain ⟨-, hjtt, -, hjrrr⟩ := decode_ok_fields hj
  exact ⟨j, hj, hjtt.trans htt, hjrrr.trans hrrr⟩

/-- Settles O5: a row selects exactly the bytes with the first byte 0xCB and the row's two codes,
and those codes determine both the decoded mnemonic and the row. -/
theorem opcodeTableRowsAgreeWithDecode : Obligations.OpcodeTableRowsAgreeWithDecode := by
  unfold Obligations.OpcodeTableRowsAgreeWithDecode
  refine ⟨fun b0 b1 i h => ?_, fun b0 b1 row hrow hsel => ?_,
    fun b0 b1 row hrow other hother hsel hsel' => ?_⟩
  · simpa only [encode_of_decode h] using i.selects_own_row (decode_ok_wellFormed h)
  · obtain ⟨i, rfl⟩ := exists_tableRow hrow
    obtain ⟨j, hj, htt, hrrr⟩ := exists_decode_of_selects hsel
    exact ⟨j, hj, congrArg OpcodeRow.mnemonic (tableRow_of_codes htt hrrr)⟩
  · obtain ⟨i, rfl⟩ := exists_tableRow hrow
    obtain ⟨j, rfl⟩ := exists_tableRow hother
    obtain ⟨-, htt, hrrr⟩ := (tableRow_selects_iff i b0 b1).mp hsel
    obtain ⟨-, htt', hrrr'⟩ := (tableRow_selects_iff j b0 b1).mp hsel'
    exact tableRow_of_codes (htt.symm.trans htt') (hrrr.symm.trans hrrr')

end Sys2Proof
end

section
/-! PROOFS. Construction: what it accepts, what it reports and in which order, and the 176
well-formed descriptors (spec/30_encoding.md R82; spec/60_exceptions.md R151, R158). -/

namespace Sys2Proof

/-- The transform of an instruction carries its bit index. -/
theorem Instr.xf_cases (i : Instr) :
    i.descriptor.xf = .resetBit i.bitIndex ∨ i.descriptor.xf = .setBit i.bitIndex := by
  cases i <;> simp [Instr.descriptor, Instr.bitIndex]

end Sys2Proof

namespace Sys2Proof.Machine

/-! ### Construction that succeeds -/

/-- What constructs, constructs from its transform and its mode. -/
theorem construct_ok_parts {raw : RawDescriptor} {d : Descriptor} (h : construct raw = .ok d) :
    constructTransform raw.xf = .ok d.xf ∧ constructMode raw.mode = .ok d.mode := by
  unfold construct at h
  split at h
  · cases h
  · split at h
    · cases h
    · cases h
      exact ⟨‹_›, ‹_›⟩

/-- A mode constructs to the register, or the pair, that its identity names. -/
theorem constructMode_ok_cases {m : RawMode} {b : Mode} (h : constructMode m = .ok b) :
    (∃ id r, m = .registerDirect id ∧ reg8OfId id = some r ∧ b = .registerDirect r) ∨
    (∃ id p, m = .memoryIndirect id ∧ pairOfId id = some p ∧ b = .memoryIndirect p) := by
  cases m with
  | registerDirect id =>
    cases hr : reg8OfId id with
    | none => simp [constructMode, hr] at h
    | some r => exact .inl ⟨id, r, rfl, hr, by simpa [constructMode, hr] using h.symm⟩
  | memoryIndirect id =>
    cases hp : pairOfId id with
    | none => simp [constructMode, hp] at h
    | some p => exact .inr ⟨id, p, rfl, hp, by simpa [constructMode, hp] using h.symm⟩

/-- A memory-indirect descriptor constructs, if at all, from its transform and the pair its identity
names. -/
theorem construct_pair_ok {raw : RawTransform} {id : RegId} {p : Pair} {d : Descriptor}
    (hp : pairOfId id = some p) (h : construct ⟨raw, .memoryIndirect id⟩ = .ok d) :
    ∃ xf, constructTransform raw = .ok xf ∧ d = ⟨xf, .memoryIndirect p⟩ := by
  cases hx : constructTransform raw with
  | error e => simp [construct, hx] at h
  | ok xf => exact ⟨xf, rfl, by simpa [construct, constructMode, hx, hp] using h.symm⟩

/-- Only the identity F names the register F. -/
theorem reg8OfId_eq_F {id : RegId} (h : reg8OfId id = some .F) : id = .F := by
  cases id <;> cases h
  rfl

/-- An instruction constructs to a register other than F or to memory through HL (R87). -/
theorem construct_descriptor_mode {i : Instr} {d : Descriptor}
    (h : construct i.descriptor = .ok d) :
    (∃ r, r ≠ .F ∧ d.mode = .registerDirect r) ∨ d.mode = .memoryIndirect .HL := by
  obtain ⟨-, hmode⟩ := construct_ok_parts h
  obtain ⟨id, r, hid, hr, hd⟩ | ⟨id, p, hid, hp, hd⟩ := constructMode_ok_cases hmode
  · refine .inl ⟨r, fun hF => ?_, hd⟩
    subst hF
    exact i.mode_ne_registerDirect_F (reg8OfId_eq_F hr ▸ hid)
  · cases Instr.mode_memoryIndirect_HL hid
    cases hp
    exact .inr hd

/-- A decoded instruction is well-formed, so it constructs and executes. -/
theorem exec_of_decode {b0 b1 : Byte} {i : Instr} (h : decode b0 b1 = .ok i) (s : State) :
    ∃ d, construct i.descriptor = .ok d ∧ exec i s = .next (execute d s) := by
  obtain ⟨d, hd⟩ := construct_of_wellFormed (d := i.descriptor) (decode_ok_wellFormed h)
  exact ⟨d, hd, by rw [exec_eq_constructAndExecute, constructAndExecute_of_construct hd]⟩

/-! ### Construction that is rejected -/

/-- A transform's construction turns on its bit index alone. -/
theorem constructTransform_cases (raw : RawTransform) :
    ∃ n, (raw = .resetBit n ∨ raw = .setBit n) ∧
      ((n < 8 ∧ raw.wellFormed = true) ∨
       (8 ≤ n ∧ constructTransform raw = .error (.bitIndexOutOfRange n))) := by
  cases raw with
  | resetBit n =>
    exact ⟨n, .inl rfl, (Nat.lt_or_ge n 8).imp (fun hn => ⟨hn, decide_eq_true hn⟩)
      fun hn => ⟨hn, constructTransform_resetBit_outOfRange hn⟩⟩
  | setBit n =>
    exact ⟨n, .inr rfl, (Nat.lt_or_ge n 8).imp (fun hn => ⟨hn, decide_eq_true hn⟩)
      fun hn => ⟨hn, constructTransform_setBit_outOfRange hn⟩⟩

/-- A mode's construction turns on its identity alone. -/
theorem constructMode_cases (m : RawMode) :
    m.wellFormed = true ∨
    ∃ id, constructMode m = .error (.unknownRegister id) ∧
      ((m = .registerDirect id ∧ id.isReg8 = false) ∨
       (m = .memoryIndirect id ∧ id.isPair = false)) := by
  cases hwf : m.wellFormed with
  | true => exact .inl rfl
  | false =>
    cases m with
    | registerDirect id =>
      exact .inr ⟨id, constructMode_registerDirect_unknown hwf, .inl ⟨rfl, hwf⟩⟩
    | memoryIndirect id =>
      exact .inr ⟨id, constructMode_memoryIndirect_unknown hwf, .inr ⟨rfl, hwf⟩⟩

/-- A transform that does not construct is reported, whatever the mode (R158). -/
theorem construct_transform_error {xf : RawTransform} {e : Fault}
    (h : constructTransform xf = .error e) (m : RawMode) : construct ⟨xf, m⟩ = .error e := by
  simp [construct, h]

/-- With the bit index in range, a mode that does not construct is reported (R158). -/
theorem construct_mode_error {xf : RawTransform} {m : RawMode} {e : Fault}
    (hxf : xf.wellFormed = true) (h : constructMode m = .error e) :
    construct ⟨xf, m⟩ = .error e := by
  obtain ⟨b, hb⟩ := constructTransform_of_wellFormed hxf
  simp [construct, hb, h]

/-- Construction succeeds exactly on well-formed descriptors. -/
theorem wellFormed_iff_constructs (raw : RawDescriptor) :
    raw.wellFormed = true ↔ ∃ d, construct raw = .ok d := by
  refine ⟨construct_of_wellFormed, fun ⟨d, hd⟩ => ?_⟩
  obtain ⟨hxf, hmode⟩ := construct_ok_parts hd
  refine Bool.and_eq_true_iff.mpr ⟨?_, ?_⟩
  · obtain ⟨n, -, ⟨-, hwf⟩ | ⟨-, herr⟩⟩ := constructTransform_cases raw.xf
    · exact hwf
    · cases hxf.symm.trans herr
  · obtain hwf | ⟨id, herr, -⟩ := constructMode_cases raw.mode
    · exact hwf
    · cases hmode.symm.trans herr

/-- The two causes of a rejected construction, each with what the descriptor itself presented
(R151). -/
theorem constructAndExecute_fault_cause {raw : RawDescriptor} {s : State} {r : Fault}
    (h : constructAndExecute raw s = .fault r) :
    ∃ n, (raw.xf = .resetBit n ∨ raw.xf = .setBit n) ∧
      ((causeCode r = 1 ∧ r = .bitIndexOutOfRange n ∧ 8 ≤ n) ∨
       (causeCode r = 2 ∧ n < 8 ∧ ∃ id, r = .unknownRegister id ∧
         ((raw.mode = .registerDirect id ∧ id.isReg8 = false) ∨
          (raw.mode = .memoryIndirect id ∧ id.isPair = false)))) := by
  obtain ⟨rawXf, rawMode⟩ := raw
  obtain ⟨n, hraw, ⟨hn, hxf⟩ | ⟨hn, herr⟩⟩ := constructTransform_cases rawXf
  · obtain hmode | ⟨id, herr, hid⟩ := constructMode_cases rawMode
    · obtain ⟨d, hd⟩ := construct_of_wellFormed (d := ⟨rawXf, rawMode⟩)
        (Bool.and_eq_true_iff.mpr ⟨hxf, hmode⟩)
      rw [constructAndExecute_of_construct hd] at h
      cases h
    · rw [constructAndExecute_mode_error hxf herr] at h
      cases h
      exact ⟨n, hraw, .inr ⟨rfl, hn, id, rfl, hid⟩⟩
  · rw [constructAndExecute_transform_error herr] at h
    cases h
    exact ⟨n, hraw, .inl ⟨rfl, rfl, hn⟩⟩

/-- An instruction whose bit index is out of range does not construct (R82 (1)). -/
theorem constructTransform_descriptor_outOfRange {i : Instr} (h : 8 ≤ i.bitIndex) :
    constructTransform i.descriptor.xf = .error (.bitIndexOutOfRange i.bitIndex) := by
  obtain hxf | hxf := i.xf_cases <;> rw [hxf]
  · exact constructTransform_resetBit_outOfRange h
  · exact constructTransform_setBit_outOfRange h

/-- Settles O19: every instruction constructs a transform with its own bit index, checked first. -/
theorem bitIndexOutOfRangeIsRejected : Obligations.BitIndexOutOfRangeIsRejected := by
  unfold Obligations.BitIndexOutOfRangeIsRejected
  intro i s h
  refine ⟨?_, ?_⟩
  · rw [Bool.eq_false_iff, Ne, i.wellFormed_iff]
    exact h.not_gt
  · rw [exec_eq_constructAndExecute]
    exact constructAndExecute_transform_error (constructTransform_descriptor_outOfRange h) _ s

/-! ### All well-formed descriptors -/

/-- The sixteen transforms. -/
def allTransforms : List Transform :=
  (List.finRange 8).map .resetBit ++ (List.finRange 8).map .setBit

/-- The eleven addressing modes. -/
def allModes : List Mode :=
  [Reg8.A, .B, .C, .D, .E, .H, .L, .F].map .registerDirect ++
    [Pair.BC, .DE, .HL].map .memoryIndirect

/-- Every transform with every mode. -/
def allDescriptors : List Descriptor :=
  (allTransforms ×ˢ allModes).map fun p => ⟨p.1, p.2⟩

theorem mem_allTransforms (xf : Transform) : xf ∈ allTransforms := by
  cases xf with
  | resetBit n => exact List.mem_append_left _ (List.mem_map_of_mem (List.mem_finRange n))
  | setBit n => exact List.mem_append_right _ (List.mem_map_of_mem (List.mem_finRange n))

theorem mem_allModes (m : Mode) : m ∈ allModes := by
  cases m with
  | registerDirect r => cases r <;> decide
  | memoryIndirect p => cases p <;> decide

theorem mem_allDescriptors (d : Descriptor) : d ∈ allDescriptors :=
  List.mem_map_of_mem (List.mem_product.mpr ⟨mem_allTransforms d.xf, mem_allModes d.mode⟩)

theorem nodup_allDescriptors : allDescriptors.Nodup := by
  have hxf : allTransforms.Nodup := by decide
  have hmode : allModes.Nodup := by decide
  refine (hxf.product hmode).map fun p q h => ?_
  obtain ⟨h1, h2⟩ := Descriptor.mk.inj h
  exact Prod.ext h1 h2

theorem length_allDescriptors : allDescriptors.length = 176 := by
  rw [allDescriptors, List.length_map, List.length_product]
  decide

/-- Settles O47: well-formedness is what the two checks test; each check by its own rejection and by
what it binds; the list of all descriptors is the product of 16 transforms and 11 modes. -/
theorem constructionChecksInOrder : Obligations.ConstructionChecksInOrder := by
  unfold Obligations.ConstructionChecksInOrder
  refine ⟨wellFormed_iff_constructs, fun n mode hn => ⟨?_, ?_⟩,
    fun n id hn => ⟨fun hid => ?_, fun hid => ?_⟩,
    fun n id r hr => ⟨construct_resetBit_register n.isLt hr, construct_setBit_register n.isLt hr⟩,
    fun n id p hp => ⟨construct_resetBit_pair n.isLt hp, construct_setBit_pair n.isLt hp⟩,
    fun b0 b1 h => decode_firstByte h b1,
    allDescriptors, nodup_allDescriptors, length_allDescriptors, mem_allDescriptors⟩
  · exact construct_transform_error (constructTransform_resetBit_outOfRange hn) mode
  · exact construct_transform_error (constructTransform_setBit_outOfRange hn) mode
  · have hmode := constructMode_registerDirect_unknown hid
    exact ⟨construct_mode_error (xf := .resetBit n) (decide_eq_true hn) hmode,
      construct_mode_error (xf := .setBit n) (decide_eq_true hn) hmode⟩
  · have hmode := constructMode_memoryIndirect_unknown hid
    exact ⟨construct_mode_error (xf := .resetBit n) (decide_eq_true hn) hmode,
      construct_mode_error (xf := .setBit n) (decide_eq_true hn) hmode⟩

end Sys2Proof.Machine
end

section
/-! PROOFS. The transforms' laws, repeated execution, and the memory forms while not ready
(spec/40_execute_contract.md R113; spec/41_bit_reset.md R123; spec/42_bit_set.md R133;
spec/20_memory.md R68). -/

namespace Sys2Proof.Machine

/-! ### Laws of the two transforms (R123, R133) -/

theorem transform_resetBit_same (n : Fin 8) (v : Byte) :
    (transform (.resetBit n) v).getLsbD n.val = false := by
  rw [transform_resetBit_getLsbD, decide_eq_true rfl, Bool.not_true, Bool.and_false]

theorem transform_setBit_same (n : Fin 8) (v : Byte) :
    (transform (.setBit n) v).getLsbD n.val = true := by
  rw [transform_setBit_getLsbD, decide_eq_true rfl, Bool.or_true]

/-- A transform a second time finds nothing to change. -/
theorem transform_idem (xf : Transform) (v : Byte) :
    transform xf (transform xf v) = transform xf v := by
  cases xf with
  | resetBit n => simp only [transform, BitVec.and_assoc, BitVec.and_self]
  | setBit n => simp only [transform, BitVec.or_assoc, BitVec.or_self]

/-- Two resets commute. -/
theorem transform_resetBit_comm (n m : Fin 8) (v : Byte) :
    transform (.resetBit m) (transform (.resetBit n) v) =
      transform (.resetBit n) (transform (.resetBit m) v) := by
  simp only [transform]
  rw [BitVec.and_assoc, BitVec.and_comm (~~~ bitMask n), BitVec.and_assoc]

/-- Two sets commute. -/
theorem transform_setBit_comm (n m : Fin 8) (v : Byte) :
    transform (.setBit m) (transform (.setBit n) v) =
      transform (.setBit n) (transform (.setBit m) v) := by
  simp only [transform]
  rw [BitVec.or_assoc, BitVec.or_comm (bitMask n), BitVec.or_assoc]

/-- On different bits a set and a reset commute. -/
theorem transform_setBit_resetBit_comm {n m : Fin 8} (h : m ≠ n) (v : Byte) :
    transform (.setBit m) (transform (.resetBit n) v) =
      transform (.resetBit n) (transform (.setBit m) v) := by
  refine BitVec.eq_of_getLsbD_eq fun k _ => ?_
  simp only [transform_setBit_getLsbD, transform_resetBit_getLsbD]
  by_cases hk : m.val = k
  · have hn : n.val ≠ k := fun e => h (Fin.ext (hk.trans e.symm))
    simp [hk, hn]
  · simp [hk]

/-- Setting a bit hides whether it was cleared before. -/
theorem transform_setBit_resetBit_same (n : Fin 8) (v : Byte) :
    transform (.setBit n) (transform (.resetBit n) v) = transform (.setBit n) v := by
  refine BitVec.eq_of_getLsbD_eq fun k _ => ?_
  simp only [transform_setBit_getLsbD, transform_resetBit_getLsbD]
  by_cases hk : n.val = k <;> simp [hk]

/-- Clearing a bit hides whether it was set before. -/
theorem transform_resetBit_setBit_same (n : Fin 8) (v : Byte) :
    transform (.resetBit n) (transform (.setBit n) v) = transform (.resetBit n) v := by
  refine BitVec.eq_of_getLsbD_eq fun k _ => ?_
  simp only [transform_setBit_getLsbD, transform_resetBit_getLsbD]
  by_cases hk : n.val = k <;> simp [hk]

/-- Clearing a clear bit changes nothing. -/
theorem transform_resetBit_of_clear {n : Fin 8} {v : Byte} (h : v.getLsbD n.val = false) :
    transform (.resetBit n) v = v := by
  refine BitVec.eq_of_getLsbD_eq fun k _ => ?_
  rw [transform_resetBit_getLsbD]
  by_cases hk : n.val = k
  · rw [← hk, h, Bool.false_and]
  · rw [decide_eq_false hk, Bool.not_false, Bool.and_true]

/-- Setting a set bit changes nothing. -/
theorem transform_setBit_of_set {n : Fin 8} {v : Byte} (h : v.getLsbD n.val = true) :
    transform (.setBit n) v = v := by
  refine BitVec.eq_of_getLsbD_eq fun k _ => ?_
  rw [transform_setBit_getLsbD]
  by_cases hk : n.val = k
  · rw [← hk, h, Bool.true_or]
  · rw [decide_eq_false hk, Bool.or_false]

/-! ### Exact values (R123, R133) -/

/-- Setting a clear bit adds its weight. -/
theorem transform_setBit_toNat_of_clear {n : Fin 8} {v : Byte} (h : v.getLsbD n.val = false) :
    (transform (.setBit n) v).toNat = v.toNat + (bitMask n).toNat := by
  have hdisjoint : v &&& bitMask n = 0#8 := by
    refine BitVec.eq_of_getLsbD_eq fun k _ => ?_
    rw [BitVec.getLsbD_and, bitMask_getLsbD, BitVec.getLsbD_zero]
    by_cases hk : n.val = k
    · rw [← hk, h, Bool.false_and]
    · rw [decide_eq_false hk, Bool.and_false]
  rw [transform, ← BitVec.add_eq_or_of_and_eq_zero _ _ hdisjoint,
    BitVec.toNat_add_of_and_eq_zero hdisjoint]

/-- Clearing a set bit takes its weight away. -/
theorem transform_resetBit_toNat_of_set {n : Fin 8} {v : Byte} (h : v.getLsbD n.val = true) :
    (transform (.resetBit n) v).toNat + (bitMask n).toNat = v.toNat := by
  rw [← transform_setBit_toNat_of_clear (transform_resetBit_same n v),
    transform_setBit_resetBit_same, transform_setBit_of_set h]

theorem transform_resetBit_toNat_le (n : Fin 8) (v : Byte) :
    (transform (.resetBit n) v).toNat ≤ v.toNat := by
  rw [transform, BitVec.toNat_and]
  exact Nat.and_le_left

theorem le_transform_setBit_toNat (n : Fin 8) (v : Byte) :
    v.toNat ≤ (transform (.setBit n) v).toNat := by
  rw [transform, BitVec.toNat_or]
  exact Nat.left_le_or

/-! ### All eight bits, in any order (R123, R133) -/

/-- A fold of operations, each of which gives its own bit the value `b` and takes it from no bit,
gives every bit it meets that value, whatever the order and however often. -/
theorem foldl_getLsbD_of_mem {f : Byte → Fin 8 → Byte} {b : Bool}
    (hset : ∀ v n, (f v n).getLsbD n.val = b)
    (hkeep : ∀ v n (m : Fin 8), v.getLsbD m.val = b → (f v n).getLsbD m.val = b)
    (l : List (Fin 8)) (v : Byte) (n : Fin 8) (h : v.getLsbD n.val = b ∨ n ∈ l) :
    (l.foldl f v).getLsbD n.val = b := by
  induction l generalizing v with
  | nil => exact h.resolve_right (List.not_mem_nil)
  | cons m rest ih =>
    refine ih (f v m) ?_
    rcases h with hv | hmem
    · exact .inl (hkeep v m n hv)
    · rcases List.mem_cons.mp hmem with rfl | hrest
      · exact .inl (hset v n)
      · exact .inr hrest

/-- Resetting all eight bits clears the byte. -/
theorem foldl_resetBit_eq_zero {l : List (Fin 8)} (h : ∀ n, n ∈ l) (v : Byte) :
    l.foldl (fun w n => transform (.resetBit n) w) v = 0x00#8 := by
  refine BitVec.eq_of_getLsbD_eq fun k hk => ?_
  rw [BitVec.getLsbD_zero]
  refine foldl_getLsbD_of_mem (fun v n => transform_resetBit_same n v) (fun v n m hm => ?_) l v
    ⟨k, hk⟩ (.inr (h _))
  rw [transform_resetBit_getLsbD, hm, Bool.false_and]

/-- Setting all eight bits fills the byte. -/
theorem foldl_setBit_eq_ones {l : List (Fin 8)} (h : ∀ n, n ∈ l) (v : Byte) :
    l.foldl (fun w n => transform (.setBit n) w) v = 0xFF#8 := by
  refine BitVec.eq_of_getLsbD_eq (y := BitVec.allOnes 8) fun k hk => ?_
  rw [BitVec.getLsbD_allOnes, decide_eq_true hk]
  refine foldl_getLsbD_of_mem (fun v n => transform_setBit_same n v) (fun v n m hm => ?_) l v
    ⟨k, hk⟩ (.inr (h _))
  rw [transform_setBit_getLsbD, hm, Bool.true_or]

/-- Settles O26: the laws bit by bit, the exact value from that of the set that undoes the reset,
and the sequences by `foldl_getLsbD_of_mem`. -/
theorem resetBitLaws : Obligations.ResetBitLaws := by
  unfold Obligations.ResetBitLaws
  exact ⟨fun n m v => ⟨transform_idem _ v, transform_resetBit_comm n m v,
    transform_resetBit_toNat_le n v, transform_resetBit_toNat_of_set, transform_resetBit_of_clear,
    transform_resetBit_same n v, transform_resetBit_setBit_same n v,
    transform_setBit_resetBit_same n v⟩, fun _ v h => foldl_resetBit_eq_zero h v⟩

/-- Settles O27: the laws bit by bit, the exact value because the mask meets no set bit, and the
sequences by `foldl_getLsbD_of_mem`. -/
theorem setBitLaws : Obligations.SetBitLaws := by
  unfold Obligations.SetBitLaws
  exact ⟨fun n m v => ⟨transform_idem _ v, transform_setBit_comm n m v,
    le_transform_setBit_toNat n v, transform_setBit_toNat_of_clear, transform_setBit_of_set,
    fun h => transform_setBit_resetBit_comm h v, transform_setBit_same n _,
    transform_resetBit_same n _⟩, fun _ v h => foldl_setBit_eq_ones h v⟩

/-! ### Executing while ready (R113) -/

/-- Memory-indirect execution while ready writes the transformed byte to the one cell. -/
theorem execute_memoryIndirect_ready (xf : Transform) (p : Pair) {s : State} (h : s.ready = true) :
    execute ⟨xf, .memoryIndirect p⟩ s = State.charge (cost xf (.memoryIndirect p))
      (s.setCell (s.effectiveAddress p) (transform xf (s.cell (s.effectiveAddress p)))) := by
  rw [execute_memoryIndirect, readByte_ready _ h, writeByte_ready _ _ h]

/-- While ready, execution draws no free byte. -/
theorem execute_draws_ready (d : Descriptor) {s : State} (h : s.ready = true) :
    (execute d s).draws = s.draws := by
  obtain ⟨xf, r | p⟩ := d
  · rfl
  · rw [execute_memoryIndirect_ready xf p h, charge_draws, setCell_draws]

/-- While ready, execution neither reads nor moves the model's counter. -/
theorem execute_withDraws_ready (d : Descriptor) {s : State} (k : Nat) (h : s.ready = true) :
    execute d { s with draws := k } = { execute d s with draws := k } := by
  obtain ⟨xf, r | p⟩ := d
  · rfl
  · rw [execute_memoryIndirect_ready xf p h, execute_memoryIndirect_ready xf p (by exact h)]
    rfl

/-- While ready, an instruction's outcome is the same but for the counter. -/
theorem exec_withDraws_ready (i : Instr) {s : State} (k : Nat) (h : s.ready = true) :
    exec i { s with draws := k } = mapNext (fun t => { t with draws := k }) (exec i s) := by
  rw [exec_eq_constructAndExecute, exec_eq_constructAndExecute, constructAndExecute,
    constructAndExecute]
  cases construct i.descriptor with
  | ok d => exact congrArg Host.Outcome.next (execute_withDraws_ready d k h)
  | error e => rfl

/-- Settles O20: the second application finds the transformed operand at the same place, and the
transform is idempotent. -/
theorem repeatedExecutionChangesNothing : Obligations.RepeatedExecutionChangesNothing := by
  unfold Obligations.RepeatedExecutionChangesNothing
  rintro ⟨xf, r | p⟩ s h
  · have once := execute_registerDirect xf r s
    rw [once, execute_charge, execute_registerDirect, get8_set8_same, set8_set8, transform_idem]
  · have once := execute_memoryIndirect_ready xf p h
    have hset (v : Byte) : (s.setCell (s.effectiveAddress p) v).effectiveAddress p =
        s.effectiveAddress p := rfl
    rw [once, execute_charge, execute_memoryIndirect_ready xf p (by exact h), hset,
      setCell_cell_same, setCell_setCell_same, transform_idem]

/-! ### Executing while not ready (20_memory.md R68) -/

/-- While not ready a byte read follows `NOTREADY_READ`. -/
theorem readByte_notReady {s : State} (a : Word) (h : s.ready = false) :
    s.readByte a = ((Statement.notReadyRead s a).1,
      { s with draws := (Statement.notReadyRead s a).2 }) := by
  rw [State.readByte, if_neg (by simp [h]), Statement.notReadyRead]
  cases Config.notReadyRead <;> rfl

/-- While not ready a byte write follows `NOTREADY_WRITE`. -/
theorem writeByte_notReady {s : State} (a : Word) (v : Byte) (h : s.ready = false) :
    s.writeByte a v = { s with mem := Statement.notReadyWrite s a v } := by
  rw [State.writeByte, if_neg (by simp [h]), Statement.notReadyWrite]
  cases Config.notReadyWrite <;> rfl

/-- A byte read and then written at the same address while not ready. -/
theorem readByte_writeByte_charge_notReady {s : State} (a : Word) (f : Byte → Byte) (c : Nat)
    (h : s.ready = false) :
    ((s.readByte a).2.writeByte a (f (s.readByte a).1)).charge c =
      { rf := { s.rf with liet := c }
        mem := Statement.notReadyWrite s a (f (Statement.notReadyRead s a).1)
        ready := false
        draws := (Statement.notReadyRead s a).2 } := by
  simp only [readByte_notReady a h]
  rw [writeByte_notReady (s := { s with draws := (Statement.notReadyRead s a).2 }) _ _ h, ← h]
  rfl

/-- RES through a pair while not ready. -/
theorem constructAndExecute_resetBit_pair_notReady {n : Nat} {id : RegId} {p : Pair} (hn : n < 8)
    (hp : pairOfId id = some p) {s : State} (h : s.ready = false) :
    constructAndExecute ⟨.resetBit n, .memoryIndirect id⟩ s = .next
      { rf := { s.rf with liet := Config.cycResMem }
        mem := Statement.notReadyWrite s (s.effectiveAddress p)
          ((Statement.notReadyRead s (s.effectiveAddress p)).1 &&& ~~~ (1#8 <<< n))
        ready := false
        draws := (Statement.notReadyRead s (s.effectiveAddress p)).2 } := by
  rw [constructAndExecute_resetBit_pair hn hp]
  exact congrArg _ (readByte_writeByte_charge_notReady _ (· &&& ~~~ (1#8 <<< n)) _ h)

/-- SET through a pair while not ready. -/
theorem constructAndExecute_setBit_pair_notReady {n : Nat} {id : RegId} {p : Pair} (hn : n < 8)
    (hp : pairOfId id = some p) {s : State} (h : s.ready = false) :
    constructAndExecute ⟨.setBit n, .memoryIndirect id⟩ s = .next
      { rf := { s.rf with liet := Config.cycSetMem }
        mem := Statement.notReadyWrite s (s.effectiveAddress p)
          ((Statement.notReadyRead s (s.effectiveAddress p)).1 ||| (1#8 <<< n))
        ready := false
        draws := (Statement.notReadyRead s (s.effectiveAddress p)).2 } := by
  rw [constructAndExecute_setBit_pair hn hp]
  exact congrArg _ (readByte_writeByte_charge_notReady _ (· ||| (1#8 <<< n)) _ h)

/-- Settles O17: the two instructions are the case HL of the descriptors through each pair. -/
theorem memoryFormsRunWhileNotReady : Obligations.MemoryFormsRunWhileNotReady := by
  unfold Obligations.MemoryFormsRunWhileNotReady
  refine ⟨fun n s hn h => ⟨?_, ?_⟩, fun n id p a s hn h hp ha => ?_⟩
  · exact constructAndExecute_resetBit_pair_notReady hn (p := .HL) rfl h
  · exact constructAndExecute_setBit_pair_notReady hn (p := .HL) rfl h
  · subst ha
    exact ⟨constructAndExecute_resetBit_pair_notReady hn hp h,
      constructAndExecute_setBit_pair_notReady hn hp h⟩

/-- Settles O40: the byte accesses by their not-ready equations; words, `reset()` and
`setSystemReady` are what their definitions say in any state. -/
theorem notReadyAccessesFollowThePolicy : Obligations.NotReadyAccessesFollowThePolicy := by
  unfold Obligations.NotReadyAccessesFollowThePolicy
  intro s a v b flag h
  refine ⟨?_, ?_, rfl, rfl, rfl, rfl⟩
  · rw [readByte_notReady a h, Statement.notReadyRead]
    cases Config.notReadyRead <;> rfl
  · rw [writeByte_notReady a b h, Statement.notReadyWrite]
    cases Config.notReadyWrite <;> rfl

end Sys2Proof.Machine
end

section
/-! PROOFS. The step: fetch, decode and advance, its two outcomes, what an accepted step writes, and
runs (spec/40_execute_contract.md R100 to R117). -/

namespace Sys2Proof.Machine

/-! ### The two outcomes (R100) -/

/-- While ready the fetch reads the cells at `pc` and `pc +_16 1` and changes nothing. -/
theorem fetch_ready {s : State} (h : s.ready = true) :
    s.fetch = (s.cell s.rf.pc, s.cell (s.rf.pc + 1#16), s) := by
  simp [State.fetch, readByte_ready _ h]

/-- A decoded instruction runs with `pc` advanced. -/
theorem step_of_decode_ok {s : State} {i : Instr} (h : decode s.fetch.1 s.fetch.2.1 = .ok i) :
    step s = exec i s.fetch.2.2.advancePc := by simp [step, h]

/-- Bytes that do not decode are reported with `pc`. -/
theorem step_of_decode_error {s : State} {e : UnknownOpcode}
    (h : decode s.fetch.1 s.fetch.2.1 = .error e) :
    step s = .fault (.unknownOpcode s.rf.pc e) := by simp [step, h, reject]

/-- A step either executes the descriptor of the decoded instruction, with `pc` advanced, or is
rejected with what `decode` reports. -/
theorem step_cases (s : State) :
    (∃ i d, decode s.fetch.1 s.fetch.2.1 = .ok i ∧ construct i.descriptor = .ok d ∧
      step s = .next (execute d s.fetch.2.2.advancePc)) ∨
    (∃ e, decode s.fetch.1 s.fetch.2.1 = .error e ∧
      step s = .fault (.unknownOpcode s.rf.pc e)) := by
  cases h : decode s.fetch.1 s.fetch.2.1 with
  | ok i =>
    obtain ⟨d, hd, hexec⟩ := exec_of_decode h s.fetch.2.2.advancePc
    exact .inl ⟨i, d, rfl, hd, (step_of_decode_ok h).trans hexec⟩
  | error e => exact .inr ⟨e, rfl, step_of_decode_error h⟩

/-- An accepted step executed one constructed descriptor, with `pc` advanced. -/
theorem step_next_execute {s t : State} (h : step s = .next t) :
    ∃ i d, decode s.fetch.1 s.fetch.2.1 = .ok i ∧ construct i.descriptor = .ok d ∧
      t = execute d s.fetch.2.2.advancePc := by
  obtain ⟨i, d, hi, hd, hs⟩ | ⟨e, -, hs⟩ := step_cases s
  · exact ⟨i, d, hi, hd, Host.Outcome.next.inj (h.symm.trans hs)⟩
  · rw [h] at hs; cases hs

/-- Settles O6: the fetch while ready, and the step by what `decode` answers. -/
theorem stepRunsTheDecodedInstruction : Obligations.StepRunsTheDecodedInstruction := by
  unfold Obligations.StepRunsTheDecodedInstruction
  refine fun s f b0 b1 => ⟨fetch_ready, fun hf => ⟨fun i hi => ?_, fun e he => ?_⟩⟩
  · rw [step_of_decode_ok (s := s) (i := i) (by rw [hf]; exact hi), hf]
    rfl
  · exact step_of_decode_error (by rw [hf]; exact he)

/-- Settles O8: the bytes decode, and a decoded instruction executes in every state. -/
theorem stepCompletesOnEveryEncoding : Obligations.StepCompletesOnEveryEncoding := by
  unfold Obligations.StepCompletesOnEveryEncoding
  intro s h0 h1
  obtain ⟨i, hi⟩ := exists_decode h1
  obtain ⟨d, -, hexec⟩ := exec_of_decode hi s.fetch.2.2.advancePc
  exact ⟨_, (step_of_decode_ok (by rw [h0]; exact hi)).trans hexec⟩

/-- The host finds the state of a rejected step as it was (60_exceptions.md R155). -/
theorem hostOp_step_of_fault {s : State} {r : Fault} (h : step s = .fault r) :
    hostOp .step s = (s, .rejected r) := by rw [hostOp, h, settleOutcome_fault]

/-- Settles O9: `decode` rejects on the first byte or on `tt`, and the host is handed that
rejection. -/
theorem stepRejectsEveryOtherBytePair : Obligations.StepRejectsEveryOtherBytePair := by
  unfold Obligations.StepRejectsEveryOtherBytePair
  have rejected {s : State} {e : UnknownOpcode} (h : decode s.fetch.1 s.fetch.2.1 = .error e) :=
    And.intro (step_of_decode_error h) (hostOp_step_of_fault (step_of_decode_error h))
  intro s b0 b1 hb0 hb1
  subst hb0 hb1
  exact ⟨fun h0 => rejected (decode_firstByte h0 _),
    fun h0 h1 => rejected (by rw [h0]; exact decode_bytePair h1)⟩

/-- A rejected step reports what `decode` reported of the fetched bytes, with `pc` (R151). -/
theorem step_fault_cause {s : State} {r : Fault} (h : step s = .fault r) :
    ∃ e, decode s.fetch.1 s.fetch.2.1 = .error e ∧ r = .unknownOpcode s.rf.pc e := by
  obtain ⟨-, d, -, -, hs⟩ | ⟨e, he, hs⟩ := step_cases s
  · rw [h] at hs
    cases hs
  · rw [h] at hs
    exact ⟨e, he, Host.Outcome.fault.inj hs⟩

/-- No step is refused. -/
theorem step_ne_refused (s : State) (r : Refusal) : step s ≠ .refused r := by
  obtain ⟨-, d, -, -, hs⟩ | ⟨e, -, hs⟩ := step_cases s <;> rw [hs] <;> nofun

/-- Settles O49: a step stops only where `decode` rejects, since a decoded instruction constructs; a
construction stops at one of its two checks. -/
theorem rejectionCausesByLevel : Obligations.RejectionCausesByLevel := by
  unfold Obligations.RejectionCausesByLevel
  refine ⟨fun s r h => ?_, step_ne_refused, fun _ _ _ => constructAndExecute_fault_cause⟩
  obtain ⟨e, he, hr⟩ := step_fault_cause h
  exact ⟨by rw [hr, causeCode], e, hr, he⟩

/-! ### What an accepted step writes (R102, R112) -/

/-- No instruction writes `pc`. -/
theorem exec_pc {i : Instr} {s t : State} (h : exec i s = .next t) : t.rf.pc = s.rf.pc := by
  obtain ⟨d, -, rfl⟩ := exec_next_cases h
  exact execute_pc d s

theorem step_pc {s t : State} (h : step s = .next t) : t.rf.pc = s.rf.pc + 2#16 := by
  obtain ⟨i, d, -, -, rfl⟩ := step_next_execute h
  rw [execute_pc, advancePc_pc, fetch_rf]

theorem step_sp {s t : State} (h : step s = .next t) : t.rf.sp = s.rf.sp := by
  obtain ⟨i, d, -, -, rfl⟩ := step_next_execute h
  rw [execute_sp, advancePc_sp, fetch_rf]

theorem step_ready {s t : State} (h : step s = .next t) : t.ready = s.ready := by
  obtain ⟨i, d, -, -, rfl⟩ := step_next_execute h
  rw [execute_ready, advancePc_ready, fetch_ready_unchanged]

/-- Settles O10: the step advances `pc` before it executes, and no execution writes it. -/
theorem acceptedStepAdvancesPcByTwo : Obligations.AcceptedStepAdvancesPcByTwo := by
  unfold Obligations.AcceptedStepAdvancesPcByTwo
  exact ⟨fun _ _ => step_pc, fun _ _ _ => exec_pc⟩

/-- Settles O7: 0xFFFF + 1 = 0 and 0xFFFF + 2 = 1 on 16 bits. -/
theorem fetchWrapsAtTheTopOfMemory : Obligations.FetchWrapsAtTheTopOfMemory := by
  unfold Obligations.FetchWrapsAtTheTopOfMemory
  intro s hready hpc
  refine ⟨?_, fun t ht => ?_⟩
  · rw [fetch_ready hready, hpc]
    rfl
  · rw [step_pc ht, hpc]
    rfl

/-- The four costs (R110). -/
theorem cost_cases (xf : Transform) (m : Mode) :
    cost xf m = 2 ∨ cost xf m = Config.cycResMem ∨ cost xf m = Config.cycSetReg ∨
      cost xf m = Config.cycSetMem := by
  cases xf <;> cases m
  · exact .inl rfl
  · exact .inr (.inl rfl)
  · exact .inr (.inr (.inl rfl))
  · exact .inr (.inr (.inr rfl))

/-- An accepted step writes one register other than F and no memory, or, of registers and memory, at
most the cell at HL. -/
theorem step_writes_one_place {s t : State} (h : step s = .next t) :
    (t.mem = s.mem ∧ ∃ r : Reg8, r ≠ .F ∧ ∀ q, q ≠ r → t.rf.get8 q = s.rf.get8 q) ∨
    ((∀ q, t.rf.get8 q = s.rf.get8 q) ∧
      ∀ a, a ≠ s.effectiveAddress .HL → t.cell a = s.cell a) := by
  obtain ⟨i, ⟨xf, mode⟩, -, hd, rfl⟩ := step_next_execute h
  obtain ⟨r, hr, rfl⟩ | rfl := construct_descriptor_mode hd
  · refine .inl ⟨?_, r, hr, fun q hq => ?_⟩
    · rw [execute_registerDirect_mem, advancePc_mem, fetch_mem]
    · rw [execute_registerDirect_get8_other _ _ hq, advancePc_get8, fetch_rf]
  · have haddr : s.fetch.2.2.advancePc.effectiveAddress .HL = s.effectiveAddress .HL := by
      rw [State.effectiveAddress, advancePc_getPair, fetch_rf, State.effectiveAddress]
    refine .inr ⟨fun q => ?_, fun a ha => ?_⟩
    · rw [execute_memoryIndirect_get8, advancePc_get8, fetch_rf]
    · rw [execute_memoryIndirect_cell_other _ (haddr ▸ ha), State.cell, advancePc_mem, fetch_mem,
        State.cell]

/-- F is not among the registers a step can write. -/
theorem step_f {s t : State} (h : step s = .next t) : t.rf.f = s.rf.f := by
  obtain ⟨-, r, hr, hkeep⟩ | ⟨hkeep, -⟩ := step_writes_one_place h
  · exact hkeep .F hr.symm
  · exact hkeep .F

/-- Settles O11, from the one descriptor that an accepted step executes. -/
theorem acceptedStepWritesOnePlace : Obligations.AcceptedStepWritesOnePlace := by
  unfold Obligations.AcceptedStepWritesOnePlace
  intro s t h
  have hliet : ∃ xf m, t.rf.liet = cost xf m := by
    obtain ⟨i, d, -, -, rfl⟩ := step_next_execute h
    exact ⟨d.xf, d.mode, execute_liet _ _⟩
  obtain ⟨xf, m, hliet⟩ := hliet
  exact ⟨step_pc h, step_sp h, step_f h, step_ready h, hliet ▸ cost_cases xf m,
    step_writes_one_place h⟩

/-- Settles O28: the table is `cost` itself, and the charge of a step is that of the descriptor it
executes. -/
theorem costTable : Obligations.CostTable := by
  unfold Obligations.CostTable
  refine ⟨fun _ _ => rfl, fun _ _ => rfl, fun _ _ => rfl, fun _ _ => rfl, cycResReg_lt_cycResMem,
    cycSetReg_lt_cycSetMem, fun s t i hi ht => ?_⟩
  obtain ⟨j, d, hj, hd, rfl⟩ := step_next_execute ht
  cases hi.symm.trans hj
  exact ⟨d, hd, execute_liet _ _⟩

/-! ### The frames of the instructions (R112) -/

/-- Settles O22: the completed instruction wrote its one register and `liet`. -/
theorem registerFormsFrame : Obligations.RegisterFormsFrame := by
  unfold Obligations.RegisterFormsFrame
  intro i s t id r hmode hr h
  rcases hi : i.descriptor with ⟨raw, mode⟩
  obtain rfl : mode = .registerDirect id := by rw [← hmode, hi]
  obtain ⟨xf, -, rfl⟩ := exec_register_next hi hr h
  refine ⟨fun q hq => ?_, ?_, ?_, fun _ => rfl, rfl, rfl, rfl⟩
  · rw [charge_get8]
    exact get8_set8_other _ _ hq
  · exact set8_sp _ _ _
  · exact set8_pc _ _ _

/-- A completed memory instruction executed its transform through its pair. -/
theorem exec_pair_next {i : Instr} {raw : RawTransform} {id : RegId} {p : Pair} {s t : State}
    (hi : i.descriptor = ⟨raw, .memoryIndirect id⟩) (hp : pairOfId id = some p)
    (h : exec i s = .next t) :
    ∃ xf, constructTransform raw = .ok xf ∧ t = execute ⟨xf, .memoryIndirect p⟩ s := by
  obtain ⟨d, hd, rfl⟩ := exec_next_cases h
  obtain ⟨xf, hxf, rfl⟩ := construct_pair_ok hp (hi ▸ hd)
  exact ⟨xf, hxf, rfl⟩

/-- Settles O23: both forms execute a descriptor through HL, whose frame is known. -/
theorem memoryFormsFrame : Obligations.MemoryFormsFrame := by
  unfold Obligations.MemoryFormsFrame
  intro n s t h
  obtain ⟨xf, rfl⟩ : ∃ xf, t = execute ⟨xf, .memoryIndirect .HL⟩ s := by
    rcases h with h | h
    · obtain ⟨xf, -, ht⟩ := exec_pair_next (p := .HL) rfl rfl h
      exact ⟨xf, ht⟩
    · obtain ⟨xf, -, ht⟩ := exec_pair_next (p := .HL) rfl rfl h
      exact ⟨xf, ht⟩
  exact ⟨execute_memoryIndirect_get8 xf .HL s, execute_sp _ s, execute_pc _ s,
    fun _ => execute_memoryIndirect_cell_other xf, execute_ready _ s, execute_draws_ready _⟩

/-! ### Runs (R117) -/

/-- Each accepted step moves `pc` by 2 and keeps `sp`, F and `ready`, so a run of `k` does too. -/
theorem run_next_frame {k : Nat} {s t : State} (h : Host.Core.run Sys2Proof.core k s = .next t) :
    t.rf.pc = s.rf.pc + BitVec.ofNat 16 (2 * k) ∧ t.rf.sp = s.rf.sp ∧ t.rf.f = s.rf.f ∧
    t.ready = s.ready := by
  induction k generalizing s with
  | zero =>
    cases h
    exact ⟨(BitVec.add_zero _).symm, rfl, rfl, rfl⟩
  | succ k ih =>
    obtain ⟨u, hu, hrest⟩ := run_next_cases h
    obtain ⟨hpc, hsp, hf, hready⟩ := ih hrest
    refine ⟨?_, hsp.trans (step_sp hu), hf.trans (step_f hu), hready.trans (step_ready hu)⟩
    rw [hpc, step_pc hu, BitVec.add_assoc, Nat.mul_succ, Nat.add_comm, BitVec.ofNat_add]

/-- `SafeFor` and `run` stop at the same first rejection. -/
theorem safeFor_iff_run_next (k : Nat) (s : State) :
    SafeFor k s = true ↔ ∃ t, Host.Core.run Sys2Proof.core k s = .next t := by
  induction k generalizing s with
  | zero => exact ⟨fun _ => ⟨s, run_zero s⟩, fun _ => rfl⟩
  | succ k ih =>
    cases h : step s with
    | next u => rw [safeFor_succ_of_next h, run_succ_of_next h, ih u]
    | fault r => simp [SafeFor, h, run_succ_of_fault h]
    | refused r => simp [SafeFor, h, run_succ_of_refused h]

/-- Settles O12, by induction on the number of steps. -/
theorem runsAdvanceSequentially : Obligations.RunsAdvanceSequentially := by
  unfold Obligations.RunsAdvanceSequentially
  exact ⟨fun _ _ _ => run_next_frame, safeFor_iff_run_next⟩

/-! ### The step while ready, and the free bytes (70_reset_and_hazards.md R194) -/

/-- While ready the step decodes the two cells at `pc`. -/
theorem step_ready_of_decode_ok {s : State} {i : Instr} (h : s.ready = true)
    (hi : decode (s.cell s.rf.pc) (s.cell (s.rf.pc + 1#16)) = .ok i) :
    step s = exec i s.advancePc := by
  rw [step_of_decode_ok (i := i) (by rw [fetch_ready h]; exact hi), fetch_ready h]

/-- While ready the step is rejected with the two cells at `pc`. -/
theorem step_ready_of_decode_error {s : State} {e : UnknownOpcode} (h : s.ready = true)
    (he : decode (s.cell s.rf.pc) (s.cell (s.rf.pc + 1#16)) = .error e) :
    step s = .fault (.unknownOpcode s.rf.pc e) :=
  step_of_decode_error (by rw [fetch_ready h]; exact he)

/-- While ready, a step's outcome is the same but for the counter. -/
theorem step_withDraws_ready {s : State} (k : Nat) (h : s.ready = true) :
    step { s with draws := k } = mapNext (fun t => { t with draws := k }) (step s) := by
  have h' : ({ s with draws := k } : State).ready = true := h
  cases hd : decode (s.cell s.rf.pc) (s.cell (s.rf.pc + 1#16)) with
  | ok i =>
    rw [step_ready_of_decode_ok h hd, step_ready_of_decode_ok h' hd]
    exact exec_withDraws_ready i (s := s.advancePc) k h
  | error e =>
    rw [step_ready_of_decode_error h hd, step_ready_of_decode_error h' hd]
    rfl

/-- Settles O54: while ready no phase of the step reads the counter, so it stays as it was. -/
theorem freeBytesDoNotMatterWhileReady : Obligations.FreeBytesDoNotMatterWhileReady := by
  unfold Obligations.FreeBytesDoNotMatterWhileReady
  intro s k h
  refine ⟨step_withDraws_ready k h, fun t ht => ⟨(step_ready ht).trans h, ?_⟩⟩
  obtain ⟨i, d, -, -, rfl⟩ := step_next_execute ht
  rw [fetch_ready h, execute_draws_ready d (s := s.advancePc) h, advancePc_draws]

end Sys2Proof.Machine
end

section
/-! PROOFS. The memory unit: extensionality, `reset()`, words, and stores that the next fetch sees
(spec/20_memory.md R54 to R73). -/

namespace Sys2Proof.Machine

/-! ### Memory as its cells (R61, R65) -/

/-- Settles O44, by `eq_of_wfFrom_of_read_eq`, an induction over both lists. -/
theorem canonicalMemoryIsExtensional : Obligations.CanonicalMemoryIsExtensional := by
  unfold Obligations.CanonicalMemoryIsExtensional
  exact fun _ _ => eq_of_wfFrom_of_read_eq

/-- Settles O45: canonical memory does not show the rewrite, and a read leaves the second read the
same state. -/
theorem rewritingAHeldValueChangesNothing : Obligations.RewritingAHeldValueChangesNothing := by
  unfold Obligations.RewritingAHeldValueChangesNothing
  intro s a hinv hready
  have hread := hostOp_readByte_ready a hready
  refine ⟨?_, ?_⟩
  · rw [writeByte_ready a _ hready, setCell_cell_self a hinv]
  · rw [hostSession_cons_of_unchanged hread, hostSession_cons_of_unchanged hread]
    rfl

theorem resetMemory_cell (s : State) (a : Word) : s.resetMemory.cell a = 0#8 :=
  cell_of_mem_nil (resetMemory_mem s) a

/-- Settles O41: after `reset()` memory lists no cell, and the read made once ready is of that
memory. -/
theorem resetZeroesMemoryOnly : Obligations.ResetZeroesMemoryOnly := by
  unfold Obligations.ResetZeroesMemoryOnly
  refine fun s a => ⟨rfl, resetMemory_cell s a, resetMemory_rf s, rfl, ?_⟩
  rw [readByte_setSystemReady_true, resetMemory_cell]

/-! ### Words (R54 to R57) -/

@[simp] theorem hiByte_joinBytes (hi lo : Byte) : hiByte (joinBytes hi lo) = hi :=
  BitVec.extractLsb'_append_eq_left

@[simp] theorem loByte_joinBytes (hi lo : Byte) : loByte (joinBytes hi lo) = lo :=
  BitVec.extractLsb'_append_eq_right

@[simp] theorem joinBytes_hiByte_loByte (v : Word) : joinBytes (hiByte v) (loByte v) = v :=
  BitVec.extractLsb'_append_extractLsb'

/-- The address after `a` is another one, also at the top of memory. -/
theorem next_address_ne (a : Word) : a + 1#16 ≠ a := by bv_omega

/-- Of two bytes stored in adjacent cells each is read back. -/
theorem setCell_next_cells (s : State) (a : Word) (lo hi : Byte) :
    ((s.setCell a lo).setCell (a + 1#16) hi).cell a = lo ∧
    ((s.setCell a lo).setCell (a + 1#16) hi).cell (a + 1#16) = hi := by
  refine ⟨?_, setCell_cell_same _ _ _⟩
  rw [setCell_cell_other _ _ (next_address_ne a).symm, setCell_cell_same]

/-- While ready a word read joins the two adjacent cells and changes nothing. -/
theorem readWord_ready {s : State} (a : Word) (h : s.ready = true) :
    s.readWord a = (joinBytes (s.cell (a + 1#16)) (s.cell a), s) := by
  rw [State.readWord, readByte_ready a h, readByte_ready _ h]

/-- While ready two writes at adjacent addresses write the two cells. -/
theorem writeByte_writeByte_ready {s : State} (a : Word) (lo hi : Byte) (h : s.ready = true) :
    (s.writeByte a lo).writeByte (a + 1#16) hi = (s.setCell a lo).setCell (a + 1#16) hi := by
  rw [writeByte_ready a lo h, writeByte_ready _ hi (by exact h)]

/-- Two bytes stored in adjacent cells are read back as one little-endian word. -/
theorem readWord_stored_bytes {s : State} (h : s.ready = true) (a : Word) (lo hi : Byte) :
    (((s.setCell a lo).setCell (a + 1#16) hi).readWord a).1 = joinBytes hi lo := by
  obtain ⟨hlo, hhi⟩ := setCell_next_cells s a lo hi
  rw [readWord_ready a (by exact h), hlo, hhi]

/-- Settles O39: a word access is two accesses to adjacent cells, which are different also at
0xFFFF. -/
theorem wordReadsAndWrites : Obligations.WordReadsAndWrites := by
  unfold Obligations.WordReadsAndWrites
  intro s a v lo hi h
  have hread := readWord_ready a h
  have hwrite : s.writeWord a v = (s.setCell a (loByte v)).setCell (a + 1#16) (hiByte v) :=
    writeByte_writeByte_ready a _ _ h
  obtain ⟨hlo, hhi⟩ := setCell_next_cells s a (loByte v) (hiByte v)
  rw [hwrite]
  refine ⟨by rw [hostOp, hread], congrArg (·, HostResult.done) hwrite, by rw [hread],
    by rw [hread, joinBytes_toNat], hlo, hhi, fun b hb hb' => ?_, ⟨rfl, rfl, rfl⟩, ?_, ?_,
    fun ha => ?_⟩
  · rw [setCell_cell_other _ _ hb', setCell_cell_other _ _ hb]
  · rw [readWord_stored_bytes h, joinBytes_hiByte_loByte]
  · rw [writeByte_writeByte_ready a lo hi h, readWord_stored_bytes h, joinBytes]
  · subst ha
    exact ⟨hlo, hhi⟩

/-! ### A store and the next fetch (R73) -/

/-- Bytes stored in two adjacent cells decode there as they do by themselves. -/
theorem decode_stored_bytes {b0 b1 : Byte} {i : Instr} (h : decode b0 b1 = .ok i) (s : State)
    (a : Word) : decode (((s.setCell a b0).setCell (a + 1#16) b1).cell a)
      (((s.setCell a b0).setCell (a + 1#16) b1).cell (a + 1#16)) = .ok i := by
  obtain ⟨h0, h1⟩ := setCell_next_cells s a b0 b1
  rw [h0, h1, h]

/-- A table value is decoded from its two bytes. -/
theorem decode_of_decodeTableWord {nbits w : Nat} {i : Instr}
    (h : decodeTableWord nbits w = some i) :
    decode (tableByte nbits w 0) (tableByte nbits w 1) = .ok i := by
  cases hd : decode (tableByte nbits w 0) (tableByte nbits w 1) with
  | ok j =>
    rw [decodeTableWord, hd] at h
    exact congrArg _ (Option.some.inj h)
  | error e =>
    rw [decodeTableWord, hd] at h
    cases h

/-- Settles O55: the placed bytes are the two cells the next fetch reads. -/
theorem placedInstructionRunsNext : Obligations.PlacedInstructionRunsNext := by
  unfold Obligations.PlacedInstructionRunsNext
  intro s w
  refine ⟨fun i hi => ?_, rfl, rfl, rfl, fun a h0 h1 => ?_⟩
  · exact step_ready_of_decode_ok rfl (decode_stored_bytes (decode_of_decodeTableWord hi) _ _)
  · rw [State.withFetchWord, setCell_cell_other _ _ h1, setCell_cell_other _ _ h0,
      setSystemReady_cell]

/-- A store through a pair that holds `pc` is the next fetch's first byte. -/
theorem fetch_execute_memoryIndirect (xf : Transform) {p : Pair} {s : State} (h : s.ready = true)
    (hpc : s.rf.pc = s.effectiveAddress p) :
    (execute ⟨xf, .memoryIndirect p⟩ s).fetch.1 = transform xf (s.cell s.rf.pc) := by
  rw [fetch_ready ((execute_ready _ s).trans h), execute_pc, hpc,
    execute_memoryIndirect_ready xf p h, charge_cell, setCell_cell_same]

/-- `RES 7,(HL)` whose operand is its own second byte: it completes, having cleared bit 7 there. -/
theorem step_resHL_own_byte {s : State} (h : s.ready = true) (h0 : s.cell s.rf.pc = 0xCB#8)
    (h1 : s.cell (s.rf.pc + 1#16) = 0xBE#8) (hHL : s.effectiveAddress .HL = s.rf.pc + 1#16) :
    step s = .next ((s.advancePc.setCell (s.rf.pc + 1#16) 0x3E#8).charge Config.cycResMem) := by
  have hdecode : decode (s.cell s.rf.pc) (s.cell (s.rf.pc + 1#16)) = .ok (.resHL 7) := by
    rw [h0, h1]
    decide
  have hHL' : s.advancePc.effectiveAddress .HL = s.rf.pc + 1#16 := hHL
  rw [step_ready_of_decode_ok h hdecode, exec_eq_constructAndExecute]
  refine (constructAndExecute_resetBit_pair_ready (by decide) (p := .HL) rfl (by exact h)).trans ?_
  rw [hHL', advancePc_cell, h1]
  rfl

/-- Settles O46: in each case the next fetch, while ready, reads the cells just written; `CB BE`
that clears bit 7 of its own second byte leaves `CB 3E`, which does not decode. -/
theorem storesAreSeenByTheNextFetch : Obligations.StoresAreSeenByTheNextFetch := by
  unfold Obligations.StoresAreSeenByTheNextFetch
  refine ⟨fun s b0 b1 i h hi => ?_, fun s t n h hpc => ⟨fun ht => ?_, fun ht => ?_⟩,
    fun s h h0 h1 hHL => ⟨_, step_resHL_own_byte h h0 h1 hHL, ?_, ?_⟩⟩
  · rw [writeByte_writeByte_ready _ _ _ h]
    exact step_ready_of_decode_ok h (decode_stored_bytes hi s _)
  · obtain ⟨xf, hxf, rfl⟩ := exec_pair_next (p := .HL) rfl rfl ht
    rw [fetch_execute_memoryIndirect xf h hpc, transform_of_construct_resetBit hxf]
  · obtain ⟨xf, hxf, rfl⟩ := exec_pair_next (p := .HL) rfl rfl ht
    rw [fetch_execute_memoryIndirect xf h hpc, transform_of_construct_setBit hxf]
  · rw [charge_cell, setCell_cell_same]
  · refine step_ready_of_decode_error (by exact h) ?_
    have hpc : (s.advancePc.setCell (s.rf.pc + 1#16) 0x3E#8).cell s.rf.pc = 0xCB#8 := by
      rw [setCell_cell_other _ _ (next_address_ne _).symm, advancePc_cell, h0]
    have hnext : (s.advancePc.setCell (s.rf.pc + 1#16) 0x3E#8).cell (s.rf.pc + 1#16) = 0x3E#8 :=
      setCell_cell_same _ _ _
    exact (congrArg₂ decode hpc hnext).trans (decode_bytePair (by decide))

end Sys2Proof.Machine
end

section
/-! PROOFS. The canonical form as an invariant, what each host operation can do, and sessions
(spec/10_state.md R20, R32; spec/20_memory.md R67; spec/70_reset_and_hazards.md R189, R191). -/

namespace Sys2Proof.Machine

/-! ### Canonical memory is kept (10_state.md R32) -/

/-- Settles O51: after power-on memory lists no cell. -/
theorem resetMeetsTheInvariant : Obligations.ResetMeetsTheInvariant := by
  unfold Obligations.ResetMeetsTheInvariant
  exact ⟨fun _ _ => nil_wf, reset_mem_wf⟩

@[simp] theorem load_mem (m : Mode) (s : State) : (load m s).2.mem = s.mem := by
  cases m with
  | registerDirect r => rfl
  | memoryIndirect p => exact readByte_mem s _

/-- A store writes one cell at most, and keeps the canonical form. -/
theorem store_keeps_inv (m : Mode) (w : Byte) {s : State} (h : s.Inv) : (store m w s).Inv := by
  cases m with
  | registerDirect r => exact h
  | memoryIndirect p => exact writeByte_keeps_wf _ w h

/-- Of the four phases only the store writes memory, and it keeps the canonical form. -/
theorem execute_keeps_inv (d : Descriptor) {s : State} (h : s.Inv) : (execute d s).Inv :=
  store_keeps_inv d.mode _ ((congrArg Memory.wf (load_mem d.mode s)).trans h)

/-- An accepted step executed one descriptor, from a state with the same memory. -/
theorem step_keeps_inv {s t : State} (hs : s.Inv) (h : step s = .next t) : t.Inv := by
  obtain ⟨i, d, -, -, rfl⟩ := step_next_execute h
  refine execute_keeps_inv d ?_
  rw [State.Inv, advancePc_mem, fetch_mem]
  exact hs

/-- Settles O52, by `step_keeps_inv`. -/
theorem stepKeepsTheInvariant : Obligations.StepKeepsTheInvariant := by
  unfold Obligations.StepKeepsTheInvariant
  exact fun _ _ => step_keeps_inv

/-! ### What a host operation can do (R191) -/

/-- What the host's operations can do to the state `s`, one case for each way of acting on it: the
operation, the state it leaves and the result it hands back. -/
inductive HostEffect (s : State) : HostOp → State → HostResult → Prop
  /-- A read changes the model's own counter at most. -/
  | observed (op : HostOp) (k : Nat) {x : HostResult} (hx : ∀ r, x ≠ .rejected r) :
      HostEffect s op { s with draws := k } x
  | rejected (op : HostOp) (r : Fault) : HostEffect s op s (.rejected r)
  | stepped {t : State} (h : step s = .next t) : HostEffect s .step t .stepped
  | executed {raw : RawDescriptor} {d : Descriptor} (h : construct raw = .ok d) :
      HostEffect s (.execute raw) (execute d s) .done
  | wroteByte (a : Word) (v : Byte) : HostEffect s (.writeByte a v) (s.writeByte a v) .done
  | wroteWord (a v : Word) : HostEffect s (.writeWord a v) (s.writeWord a v) .done
  | memoryReset : HostEffect s .reset s.resetMemory .done
  | readySet (flag : Bool) : HostEffect s (.setSystemReady flag) (s.setSystemReady flag) .done
  | register8Set {id : RegId} {r : Reg8} (h : reg8OfId id = some r) (v : Byte) :
      HostEffect s (.set8 id v) { s with rf := s.rf.set8 r v } .done
  | register16Set {id : RegId} {r : Reg16} (h : reg16OfId id = some r) (v : Word) :
      HostEffect s (.set16 id v) { s with rf := s.rf.set16 r v } .done

/-- A byte read moves the model's own counter at most. -/
theorem readByte_observed (s : State) (a : Word) :
    ∃ k, (s.readByte a).2 = { s with draws := k } := by
  rcases readByte_cases s a with h | ⟨-, -, h⟩ <;> rw [h]
  · exact ⟨s.draws, rfl⟩
  · exact ⟨_, rfl⟩

/-- A word read moves the model's own counter at most. -/
theorem readWord_observed (s : State) (a : Word) :
    ∃ k, (s.readWord a).2 = { s with draws := k } := by
  obtain ⟨k, hk⟩ := readByte_observed s a
  obtain ⟨k', hk'⟩ := readByte_observed (s.readByte a).2 (a + 1#16)
  exact ⟨k', by rw [State.readWord, hk', hk]⟩

/-- Every host operation acts in one of the ways of `HostEffect`. -/
theorem hostOp_effect (op : HostOp) (s : State) :
    HostEffect s op (hostOp op s).1 (hostOp op s).2 := by
  cases op with
  | step =>
    obtain ⟨-, d, -, -, h⟩ | ⟨e, -, h⟩ := step_cases s <;> rw [hostOp, h]
    · exact .stepped h
    · exact .rejected _ _
  | execute raw =>
    cases h : construct raw with
    | ok d =>
      rw [hostOp, constructAndExecute_of_construct h]
      exact .executed h
    | error e =>
      rw [hostOp, constructAndExecute, h]
      exact .rejected _ _
  | readByte a =>
    obtain ⟨k, hk⟩ := readByte_observed s a
    rw [hostOp, hk]
    exact .observed _ k nofun
  | readWord a =>
    obtain ⟨k, hk⟩ := readWord_observed s a
    rw [hostOp, hk]
    exact .observed _ k nofun
  | writeByte a v => exact .wroteByte a v
  | writeWord a v => exact .wroteWord a v
  | reset => exact .memoryReset
  | setSystemReady flag => exact .readySet flag
  | set8 id v =>
    cases h : reg8OfId id with
    | some r =>
      rw [hostOp_set8 h]
      exact .register8Set h v
    | none =>
      rw [hostOp, hostSet8, h]
      exact .rejected _ _
  | set16 id v =>
    cases h : reg16OfId id with
    | some r =>
      rw [hostOp_set16 h]
      exact .register16Set h v
    | none =>
      rw [hostOp, hostSet16, h]
      exact .rejected _ _
  | get8 id =>
    cases h : reg8OfId id with
    | some r =>
      rw [hostOp_get8 h]
      exact .observed _ s.draws nofun
    | none =>
      rw [hostOp, hostGet8, h]
      exact .rejected _ _
  | get16 id =>
    cases h : reg16OfId id with
    | some r =>
      rw [hostOp_get16 h]
      exact .observed _ s.draws nofun
    | none =>
      rw [hostOp, hostGet16, h]
      exact .rejected _ _
  | readyStatus => exact .observed _ s.draws nofun
  | getLastInstructionExecutionTime => exact .observed _ s.draws nofun

/-! ### Sessions (R189) -/

/-- Every way of acting on the machine keeps the canonical form. -/
theorem HostEffect.keeps_inv {op : HostOp} {s t : State} {x : HostResult}
    (h : HostEffect s op t x) (hs : s.Inv) : t.Inv := by
  cases h with
  | stepped h => exact step_keeps_inv hs h
  | executed h => exact execute_keeps_inv _ hs
  | wroteByte a v => exact writeByte_keeps_wf a v hs
  | wroteWord a v => exact writeWord_keeps_wf a v hs
  | memoryReset => exact nil_wf
  | observed | rejected | readySet | register8Set | register16Set => exact hs

/-- Settles O53, by induction over the operations of the session. -/
theorem hostSessionsKeepTheInvariant : Obligations.HostSessionsKeepTheInvariant := by
  unfold Obligations.HostSessionsKeepTheInvariant
  intro ops
  induction ops with
  | nil => exact fun _ hs => hs
  | cons op rest ih => exact fun s hs => ih _ ((hostOp_effect op s).keeps_inv hs)

/-- A session in two parts is the second run from where the first ended. -/
theorem hostSession_append (ops more : List HostOp) (s : State) :
    hostSession (ops ++ more) s =
      ((hostSession more (hostSession ops s).1).1,
        (hostSession ops s).2 ++ (hostSession more (hostSession ops s).1).2) := by
  induction ops generalizing s with
  | nil => rfl
  | cons op rest ih => simp only [List.cons_append, hostSession, ih]

/-- The host finds the next state of an accepted step. -/
theorem hostOp_step_of_next {s t : State} (h : step s = .next t) :
    hostOp .step s = (t, .stepped) := by rw [hostOp, h, settleOutcome_next]

theorem hostOp_execute_of_next {raw : RawDescriptor} {s t : State}
    (h : constructAndExecute raw s = .next t) : hostOp (.execute raw) s = (t, .done) := by
  rw [hostOp, h, settleOutcome_next]

theorem hostOp_execute_of_fault {raw : RawDescriptor} {s : State} {r : Fault}
    (h : constructAndExecute raw s = .fault r) : hostOp (.execute raw) s = (s, .rejected r) := by
  rw [hostOp, h, settleOutcome_fault]

/-- Settles O56: the host's view of each outcome, and sessions by `hostSession_append`. -/
theorem hostOperationsRunTheMachine : Obligations.HostOperationsRunTheMachine := by
  unfold Obligations.HostOperationsRunTheMachine
  exact ⟨fun _ _ => hostOp_step_of_next, fun _ _ => hostOp_step_of_fault,
    fun _ _ _ => hostOp_execute_of_next, fun _ _ _ => hostOp_execute_of_fault,
    fun _ _ _ _ => ⟨rfl, rfl, rfl, rfl⟩, hostSession_append, fun _ _ => rfl⟩

/-! ### Rejections (60_exceptions.md R155, R165) -/

/-- A rejected operation leaves the state it found (60_exceptions.md R155). -/
theorem HostEffect.eq_of_rejected {op : HostOp} {s t : State} {r : Fault}
    (h : HostEffect s op t (.rejected r)) : t = s := by
  cases h with
  | observed op k hx => exact absurd rfl (hx r)
  | rejected op r => rfl

/-- Settles O48: the state is the one the operation found, so the same operation gives the same
result. -/
theorem rejectionChangesNothing : Obligations.RejectionChangesNothing := by
  unfold Obligations.RejectionChangesNothing
  intro op s r h
  have hs : (hostOp op s).1 = s := (h ▸ hostOp_effect op s).eq_of_rejected
  exact ⟨hs, by rw [hs]; exact Prod.ext hs h⟩

theorem reg8OfId_eq_none {id : RegId} (h : id.isReg8 = false) : reg8OfId id = none :=
  Option.not_isSome_iff_eq_none.mp (by simp [reg8OfId_isSome, h])

theorem reg16OfId_eq_none {id : RegId} (h : id.isPair = false) (hSP : id ≠ .SP) (hPC : id ≠ .PC) :
    reg16OfId id = none := by
  cases id with
  | BC | DE | HL => cases h
  | SP => exact absurd rfl hSP
  | PC => exact absurd rfl hPC
  | A | B | C | D | E | H | L | F | other name => rfl

/-- Settles O34: an identity outside the enumeration names no register; the memory unit hands back
bytes, words or nothing. -/
theorem unknownIdentityIsRejected : Obligations.UnknownIdentityIsRejected := by
  unfold Obligations.UnknownIdentityIsRejected
  refine fun s id v w => ⟨fun h => ?_, fun h hSP hPC => ?_,
    fun a b r => ⟨nofun, nofun, nofun, nofun, nofun, nofun⟩⟩
  · have hnone := reg8OfId_eq_none h
    exact ⟨by rw [hostOp, hostGet8, hnone], by rw [hostOp, hostSet8, hnone]⟩
  · have hnone := reg16OfId_eq_none h hSP hPC
    exact ⟨by rw [hostOp, hostGet16, hnone], by rw [hostOp, hostSet16, hnone]⟩

/-! ### Who writes what (10_state.md R20) -/

theorem set16_sp_other (rf : RegFile) {r : Reg16} (v : Word) (h : r ≠ .SP) :
    (rf.set16 r v).sp = rf.sp := by
  cases r with
  | SP => exact absurd rfl h
  | BC | DE | HL | PC => rfl

theorem set16_pc_other (rf : RegFile) {r : Reg16} (v : Word) (h : r ≠ .PC) :
    (rf.set16 r v).pc = rf.pc := by
  cases r with
  | PC => exact absurd rfl h
  | BC | DE | HL | SP => rfl

@[simp] theorem set16_f (rf : RegFile) (r : Reg16) (v : Word) : (rf.set16 r v).f = rf.f := by
  cases r <;> rfl

@[simp] theorem set16_liet (rf : RegFile) (r : Reg16) (v : Word) :
    (rf.set16 r v).liet = rf.liet := by cases r <;> rfl

theorem reg16OfId_eq_SP {id : RegId} (h : reg16OfId id = some .SP) : id = .SP := by
  cases id <;> cases h
  rfl

theorem reg16OfId_eq_PC {id : RegId} (h : reg16OfId id = some .PC) : id = .PC := by
  cases id <;> cases h
  rfl

/-- A constructed descriptor writes the one register its identity names and no memory, or no 8-bit
register and the memory its pair points to. -/
theorem execute_of_construct_cases {raw : RawDescriptor} {d : Descriptor} (s : State)
    (h : construct raw = .ok d) :
    (∃ id r, raw = ⟨raw.xf, .registerDirect id⟩ ∧ reg8OfId id = some r ∧
      (execute d s).mem = s.mem ∧ ∀ q, q ≠ r → (execute d s).rf.get8 q = s.rf.get8 q) ∨
    (∃ id, raw = ⟨raw.xf, .memoryIndirect id⟩ ∧ ∀ q, (execute d s).rf.get8 q = s.rf.get8 q) := by
  obtain ⟨rawXf, rawMode⟩ := raw
  obtain ⟨xf, mode⟩ := d
  obtain ⟨id, r, rfl, hr, rfl⟩ | ⟨id, p, rfl, -, rfl⟩ :=
    constructMode_ok_cases (construct_ok_parts h).2
  · exact .inl ⟨id, r, rfl, hr, execute_registerDirect_mem xf r s,
      fun q => execute_registerDirect_get8_other xf s⟩
  · exact .inr ⟨id, rfl, execute_memoryIndirect_get8 xf p s⟩

/-- The operations that can change the register file, and how. -/
theorem HostEffect.rf_cases {op : HostOp} {s t : State} {x : HostResult}
    (h : HostEffect s op t x) :
    t.rf = s.rf ∨ (op = .step ∧ step s = .next t) ∨
    (∃ raw d, op = .execute raw ∧ construct raw = .ok d ∧ t = execute d s) ∨
    (∃ id r v, op = .set8 id v ∧ reg8OfId id = some r ∧ t.rf = s.rf.set8 r v) ∨
    (∃ id r v, op = .set16 id v ∧ reg16OfId id = some r ∧ t.rf = s.rf.set16 r v) := by
  cases h with
  | observed | rejected | memoryReset | readySet => exact .inl rfl
  | wroteByte a v => exact .inl (writeByte_rf s a v)
  | wroteWord a v => exact .inl (by rw [State.writeWord, writeByte_rf, writeByte_rf])
  | stepped h => exact .inr (.inl ⟨rfl, h⟩)
  | executed h => exact .inr (.inr (.inl ⟨_, _, rfl, h, rfl⟩))
  | register8Set h v => exact .inr (.inr (.inr (.inl ⟨_, _, v, rfl, h, rfl⟩)))
  | register16Set h v => exact .inr (.inr (.inr (.inr ⟨_, _, v, rfl, h, rfl⟩)))

/-- `sp` is written by `set16(SP)` only. -/
theorem HostEffect.sp_writer {op : HostOp} {s t : State} {x : HostResult}
    (h : HostEffect s op t x) (hne : t.rf.sp ≠ s.rf.sp) : ∃ v, op = .set16 .SP v := by
  obtain hrf | ⟨-, hstep⟩ | ⟨raw, d, -, -, rfl⟩ | ⟨id, r, v, -, -, hrf⟩ |
    ⟨id, r, v, rfl, hid, hrf⟩ := h.rf_cases
  · exact absurd (congrArg _ hrf) hne
  · exact absurd (step_sp hstep) hne
  · exact absurd (execute_sp d s) hne
  · exact absurd (hrf ▸ set8_sp _ r v) hne
  · by_cases hr : r = .SP
    · subst hr
      exact ⟨v, by rw [reg16OfId_eq_SP hid]⟩
    · exact absurd (hrf ▸ set16_sp_other _ v hr) hne

/-- F is written by `set8(F)` and by an executed descriptor whose operand is F (R24). -/
theorem HostEffect.f_writer {op : HostOp} {s t : State} {x : HostResult}
    (h : HostEffect s op t x) (hne : t.rf.f ≠ s.rf.f) :
    (∃ v, op = .set8 .F v) ∨ ∃ xf, op = .execute ⟨xf, .registerDirect .F⟩ := by
  obtain hrf | ⟨-, hstep⟩ | ⟨raw, d, rfl, hd, rfl⟩ | ⟨id, r, v, rfl, hid, hrf⟩ |
    ⟨id, r, v, -, -, hrf⟩ := h.rf_cases
  · exact absurd (congrArg _ hrf) hne
  · exact absurd (step_f hstep) hne
  · obtain ⟨id, r, hraw, hr, -, hkeep⟩ | ⟨id, -, hkeep⟩ := execute_of_construct_cases s hd
    · by_cases hF : r = .F
      · subst hF
        rw [reg8OfId_eq_F hr] at hraw
        exact .inr ⟨raw.xf, congrArg _ hraw⟩
      · exact absurd (hkeep .F (Ne.symm hF)) hne
    · exact absurd (hkeep .F) hne
  · by_cases hF : r = .F
    · subst hF
      exact .inl ⟨v, by rw [reg8OfId_eq_F hid]⟩
    · exact absurd (hrf ▸ get8_set8_other s.rf v (Ne.symm hF)) hne
  · exact absurd (hrf ▸ set16_f _ r v) hne

/-- `pc` is written by a step and by `set16(PC)`. -/
theorem HostEffect.pc_writer {op : HostOp} {s t : State} {x : HostResult}
    (h : HostEffect s op t x) (hne : t.rf.pc ≠ s.rf.pc) :
    op = .step ∨ ∃ v, op = .set16 .PC v := by
  obtain hrf | ⟨hop, -⟩ | ⟨raw, d, -, -, rfl⟩ | ⟨id, r, v, -, -, hrf⟩ |
    ⟨id, r, v, rfl, hid, hrf⟩ := h.rf_cases
  · exact absurd (congrArg _ hrf) hne
  · exact .inl hop
  · exact absurd (execute_pc d s) hne
  · exact absurd (hrf ▸ set8_pc _ r v) hne
  · by_cases hr : r = .PC
    · subst hr
      exact .inr ⟨v, by rw [reg16OfId_eq_PC hid]⟩
    · exact absurd (hrf ▸ set16_pc_other _ v hr) hne

/-- `liet` is written by a step and by an executed descriptor (R27). -/
theorem HostEffect.liet_writer {op : HostOp} {s t : State} {x : HostResult}
    (h : HostEffect s op t x) (hne : t.rf.liet ≠ s.rf.liet) :
    op = .step ∨ ∃ d, op = .execute d := by
  obtain hrf | ⟨hop, -⟩ | ⟨raw, -, hop, -⟩ | ⟨id, r, v, -, -, hrf⟩ | ⟨id, r, v, -, -, hrf⟩ :=
    h.rf_cases
  · exact absurd (congrArg _ hrf) hne
  · exact .inl hop
  · exact .inr ⟨raw, hop⟩
  · exact absurd (hrf ▸ set8_liet _ r v) hne
  · exact absurd (hrf ▸ set16_liet _ r v) hne

/-- An 8-bit register is written by a step, a register-direct descriptor, `set8` or `set16`. -/
theorem HostEffect.get8_writer {op : HostOp} {s t : State} {x : HostResult}
    (h : HostEffect s op t x) {q : Reg8} (hne : t.rf.get8 q ≠ s.rf.get8 q) :
    op = .step ∨ (∃ xf id, op = .execute ⟨xf, .registerDirect id⟩) ∨
      (∃ id v, op = .set8 id v) ∨ ∃ id v, op = .set16 id v := by
  obtain hrf | ⟨hop, -⟩ | ⟨raw, d, rfl, hd, rfl⟩ | ⟨id, r, v, hop, -⟩ | ⟨id, r, v, hop, -⟩ :=
    h.rf_cases
  · exact absurd (by rw [hrf]) hne
  · exact .inl hop
  · obtain ⟨id, r, hraw, -⟩ | ⟨id, -, hkeep⟩ := execute_of_construct_cases s hd
    · exact .inr (.inl ⟨raw.xf, id, congrArg _ hraw⟩)
    · exact absurd (hkeep q) hne
  · exact .inr (.inr (.inl ⟨id, v, hop⟩))
  · exact .inr (.inr (.inr ⟨id, v, hop⟩))

/-- `ready` is written by `setSystemReady` and by `reset()` (R34). -/
theorem HostEffect.ready_writer {op : HostOp} {s t : State} {x : HostResult}
    (h : HostEffect s op t x) (hne : t.ready ≠ s.ready) :
    (∃ b, op = .setSystemReady b) ∨ op = .reset := by
  cases h with
  | readySet flag => exact .inl ⟨flag, rfl⟩
  | memoryReset => exact .inr rfl
  | observed | rejected | register8Set | register16Set => exact absurd rfl hne
  | stepped h => exact absurd (step_ready h) hne
  | executed h => exact absurd (execute_ready _ s) hne
  | wroteByte a v => exact absurd (writeByte_ready_unchanged s a v) hne
  | wroteWord a v =>
    exact absurd (by rw [State.writeWord, writeByte_ready_unchanged, writeByte_ready_unchanged]) hne

/-- Memory is written by a step, a memory-indirect descriptor, the two write operations or
`reset()`. -/
theorem HostEffect.mem_writer {op : HostOp} {s t : State} {x : HostResult}
    (h : HostEffect s op t x) (hne : t.mem ≠ s.mem) :
    op = .step ∨ (∃ xf id, op = .execute ⟨xf, .memoryIndirect id⟩) ∨
      (∃ a v, op = .writeByte a v) ∨ (∃ a v, op = .writeWord a v) ∨ op = .reset := by
  cases h with
  | observed | rejected | readySet | register8Set | register16Set => exact absurd rfl hne
  | stepped h => exact .inl rfl
  | @executed raw d h =>
    obtain ⟨id, r, -, -, hmem, -⟩ | ⟨id, hraw, -⟩ := execute_of_construct_cases s h
    · exact absurd hmem hne
    · exact .inr (.inl ⟨raw.xf, id, congrArg _ hraw⟩)
  | wroteByte a v => exact .inr (.inr (.inl ⟨a, v, rfl⟩))
  | wroteWord a v => exact .inr (.inr (.inr (.inl ⟨a, v, rfl⟩)))
  | memoryReset => exact .inr (.inr (.inr (.inr rfl)))

/-- Settles O36: each piece of state by the ways in which `HostEffect` says it can change. -/
theorem eachPieceOfStateHasItsWriters : Obligations.EachPieceOfStateHasItsWriters := by
  unfold Obligations.EachPieceOfStateHasItsWriters
  intro op s t ht
  have h := ht ▸ hostOp_effect op s
  exact ⟨h.sp_writer, h.f_writer, h.pc_writer, h.liet_writer, h.ready_writer, h.mem_writer,
    fun ⟨_, hne⟩ => h.get8_writer hne⟩

/-! ### The ready state machine (20_memory.md R67) -/

/-- No operation but `setSystemReady` and `reset()` changes `ready`. -/
theorem hostOp_ready_other {op : HostOp} (s : State) (hset : ∀ b, op ≠ .setSystemReady b)
    (hreset : op ≠ .reset) : (hostOp op s).1.ready = s.ready := by
  by_contra hne
  obtain ⟨b, hop⟩ | hop := (hostOp_effect op s).ready_writer hne
  · exact hset b hop
  · exact hreset hop

/-- Settles O43: the two operations that write `ready` by their definitions, all others by
`hostOp_ready_other`. -/
theorem readyStateMachine : Obligations.ReadyStateMachine := by
  unfold Obligations.ReadyStateMachine
  refine ⟨powerOn_ready, fun op s => ?_, fun s => rfl, fun s a => ⟨rfl, cell_of_mem_nil rfl a⟩⟩
  cases op with
  | setSystemReady flag => rfl
  | reset => rfl
  | _ => exact hostOp_ready_other s nofun nofun

end Sys2Proof.Machine
end
